-- ==== Sys2Proof/Word.lean ====
section
/-!
DEFINITION. The two data types of the core: the 32-bit word and the byte (00_scope.md R8, R11).
-/

namespace Sys2Proof

/-- A 32-bit word: a register, pc, sp, MS, SL or a word in memory. Its value is the signed integer
`BitVec.toInt` (int32, R11, R12). -/
abbrev Word := BitVec 32

/-- One memory cell, one opcode or one operand byte (R11). -/
abbrev Byte := BitVec 8

end Sys2Proof
end

