-- ==== Sys2Proof/Machine/Numbers.lean ====
section
/-!
DEFINITION. Number helpers of 00_scope.md R12 and R13, and the little-endian word codec of 20_memory.md R52,
R53 and R55 on four bytes.
-/

namespace Sys2Proof.Machine

/-- `wrap32` (R12): the int32 congruent to `n` modulo 2^32. -/
def wrap32 (n : Int) : Word := BitVec.ofInt 32 n

/-- `tdiv` (R13, R123): the quotient rounded toward zero. -/
def tdiv (a b : Int) : Int := Int.tdiv a b

/-- `trem` (R13, R124): the remainder that goes with `tdiv`. -/
def trem (a b : Int) : Int := a - b * tdiv a b

/-- `ceil4` (R13): the least multiple of 4 that is at least `n`. -/
def ceil4 (n : Nat) : Nat := 4 * ((n + 3) / 4)

/-- The word whose bytes are `b0` (least significant) to `b3`: the codec of R52 and R77. -/
def wordOfBytes (b0 b1 b2 b3 : Byte) : Word := b3 ++ b2 ++ b1 ++ b0

/-- Byte `k` of a word, byte 0 the least significant: the codec of R53. -/
def wordByte (w : Word) (k : Nat) : Byte := BitVec.extractLsb' (8 * k) 8 w

end Sys2Proof.Machine
end

