-- ==== Sys2Proof/Syntax.lean ====
section
/-!
DEFINITION. The instruction set as syntax: the 25 mnemonics of 30_encoding.md R72 and one constructor of
`Instr` per row of the opcode table, its operands in byte order.
-/

namespace Sys2Proof

/-- The 25 mnemonics, in the order of the table of R72. -/
inductive Mnemonic where
  | add | neg | mul | div | mod
  | cmp | ja | je | jb | jmp | call | ret
  | load | store | const | rload | rstore
  | halt | int | nop
  | push | pushAll | pop | popAll | lsp
  deriving DecidableEq, Repr

/-- All 25 mnemonics, in the order of the table of R72. -/
def Mnemonic.all : List Mnemonic :=
  [.add, .neg, .mul, .div, .mod, .cmp, .ja, .je, .jb, .jmp, .call, .ret, .load, .store, .const,
    .rload, .rstore, .halt, .int, .nop, .push, .pushAll, .pop, .popAll, .lsp]

/-- The mnemonic's row in the table of R72, counted from 0. -/
def Mnemonic.row : Mnemonic → Fin 25
  | .add => 0 | .neg => 1 | .mul => 2 | .div => 3 | .mod => 4
  | .cmp => 5 | .ja => 6 | .je => 7 | .jb => 8 | .jmp => 9 | .call => 10 | .ret => 11
  | .load => 12 | .store => 13 | .const => 14 | .rload => 15 | .rstore => 16
  | .halt => 17 | .int => 18 | .nop => 19
  | .push => 20 | .pushAll => 21 | .pop => 22 | .popAll => 23 | .lsp => 24

/-- One instruction, as the fetch unit reads it. A register operand is the RAW byte (R75) and so is the
interrupt number (R76): the handler, not the decoder, refuses a byte that names no register (R105) or no
interrupt (R181). A word operand is the signed 32-bit word (R77). -/
inductive Instr where
  | add (src dst : Byte)
  | neg (reg : Byte)
  | mul (src dst : Byte)
  | div (src dst : Byte)
  | mod (src dst : Byte)
  | cmp (regA regB : Byte)
  | ja (target : Word)
  | je (target : Word)
  | jb (target : Word)
  | jmp (target : Word)
  | call (target : Word)
  | ret
  | load (reg : Byte) (addr : Word)
  | store (reg : Byte) (addr : Word)
  | const (reg : Byte) (imm : Word)
  | rload (addrReg dataReg : Byte)
  | rstore (dataReg addrReg : Byte)
  | halt
  | int (number : Byte)
  | nop
  | push (reg : Byte)
  | pushAll
  | pop (reg : Byte)
  | popAll
  | lsp (reg : Byte)
  deriving DecidableEq, Repr

/-- The mnemonic of an instruction. -/
def Instr.mnemonic : Instr → Mnemonic
  | .add _ _ => .add
  | .neg _ => .neg
  | .mul _ _ => .mul
  | .div _ _ => .div
  | .mod _ _ => .mod
  | .cmp _ _ => .cmp
  | .ja _ => .ja
  | .je _ => .je
  | .jb _ => .jb
  | .jmp _ => .jmp
  | .call _ => .call
  | .ret => .ret
  | .load _ _ => .load
  | .store _ _ => .store
  | .const _ _ => .const
  | .rload _ _ => .rload
  | .rstore _ _ => .rstore
  | .halt => .halt
  | .int _ => .int
  | .nop => .nop
  | .push _ => .push
  | .pushAll => .pushAll
  | .pop _ => .pop
  | .popAll => .popAll
  | .lsp _ => .lsp

/-- The register operand bytes of an instruction, in byte order (the `reg` columns of R72). -/
def Instr.regBytes : Instr → List Byte
  | .add src dst => [src, dst]
  | .neg r => [r]
  | .mul src dst => [src, dst]
  | .div src dst => [src, dst]
  | .mod src dst => [src, dst]
  | .cmp a b => [a, b]
  | .load r _ => [r]
  | .store r _ => [r]
  | .const r _ => [r]
  | .rload a d => [a, d]
  | .rstore d a => [d, a]
  | .push r => [r]
  | .pop r => [r]
  | .lsp r => [r]
  | .ja _ => []
  | .je _ => []
  | .jb _ => []
  | .jmp _ => []
  | .call _ => []
  | .ret => []
  | .halt => []
  | .int _ => []
  | .nop => []
  | .pushAll => []
  | .popAll => []

end Sys2Proof
end

