-- ==== Sys2Proof/Config.lean ====
section
/-!
DEFINITION. The constant configuration of one core (10_state.md R37; 00_scope.md R9, R10): the memory size,
the stack limit and the two OPEN parameters. It is plain data, carried by the state and written by no step
(log 4). There is no free value in this model, so no opaque constant.
-/

namespace Sys2Proof

/-- `OPCODE_OF` (R10, R72): the opcode byte of each mnemonic, in the order of the table of R72. -/
abbrev OpcodeMap := Vector Byte 25

/-- The opcode byte of a mnemonic under `OPCODE_OF` (R72). -/
def OpcodeMap.opcodeOf (ops : OpcodeMap) (m : Mnemonic) : Byte := ops.get m.row

/-- The constant configuration (R37). -/
structure Config where
  /-- `MS`, the memory size in bytes (R27). -/
  ms : Word
  /-- `SL`, the stack limit (R28). -/
  sl : Word
  /-- `OPCODE_OF` (R10, R72). -/
  opcodes : OpcodeMap
  /-- `HALT_PC_ADVANCE`, 0 or 1 (R10, R180). -/
  haltPcAdvance : Fin 2
  deriving DecidableEq, Repr

end Sys2Proof
end

