-- ==== Sys2Proof/WellFormed.lean ====
section
/-!
DEFINITION. Well-formed instructions (30_encoding.md R78: the encodings that are not illegal) and legal
configurations (R73; 10_state.md R38). An instruction that is not well formed still decodes and still has a
meaning: its handler raises the fault the spec names.
-/

namespace Sys2Proof

/-- `is_valid_index` (10_state.md R21): the byte names a general register. -/
def validReg (b : Byte) : Bool := decide (b.toNat < 4)

/-- The interrupt numbers that name an interrupt (30_encoding.md R76). -/
def validInterrupt (n : Byte) : Bool := n == 1#8 || n == 2#8

/-- The instruction is none of the illegal encodings of R78: every register byte names a register and an
interrupt number names an interrupt. Every word operand is legal. -/
def Instr.wf : Instr → Bool
  | .int n => validInterrupt n
  | i => i.regBytes.all validReg

/-- The constraints of R73 on `OPCODE_OF`: 25 distinct bytes, none of them 0x99. -/
def OpcodeMap.legal (ops : OpcodeMap) : Bool :=
  Mnemonic.all.all fun m =>
    ops.opcodeOf m != 0x99#8 && Mnemonic.all.all fun n => m == n || ops.opcodeOf m != ops.opcodeOf n

/-- The legal values of the configuration (R38, R9, R73): MS and SL are multiples of 4 in [0, 2^31 - 4]. -/
def Config.legal (c : Config) : Bool :=
  decide (0 ≤ c.ms.toInt ∧ c.ms.toInt % 4 = 0 ∧ 0 ≤ c.sl.toInt ∧ c.sl.toInt % 4 = 0) && c.opcodes.legal

end Sys2Proof
end

