-- ==== Sys2Proof/Decode.lean ====
section
/-!
DEFINITION. The opcode table (30_encoding.md R71 to R74), the decoder from bytes to an instruction, total and
rejecting by name, and the encoder, both from the formats of R70 and the operand order of R72. The opcode map
is an argument (R10).
-/

namespace Sys2Proof

/-- The reference assignment of R72: the table's order, numbered from 0x01. DESIGN CHOICE (log 2). -/
def referenceOpcodes : OpcodeMap :=
  #v[0x01#8, 0x02#8, 0x03#8, 0x04#8, 0x05#8, 0x06#8, 0x07#8, 0x08#8, 0x09#8, 0x0A#8, 0x0B#8, 0x0C#8,
    0x0D#8, 0x0E#8, 0x0F#8, 0x10#8, 0x11#8, 0x12#8, 0x13#8, 0x14#8, 0x15#8, 0x16#8, 0x17#8, 0x18#8,
    0x19#8]

/-- The opcode table (R71): the mnemonic a byte stands for, `none` for SENTINEL. -/
def lookupOpcode (ops : OpcodeMap) (b : Byte) : Option Mnemonic :=
  Mnemonic.all.find? fun m => ops.opcodeOf m == b

/-- The fixed length of an instruction in bytes (the column "length" of R72). -/
def lengthOf : Mnemonic → Nat
  | .ret => 1 | .halt => 1 | .nop => 1 | .pushAll => 1 | .popAll => 1
  | .neg => 2 | .push => 2 | .pop => 2 | .lsp => 2 | .int => 2
  | .add => 3 | .mul => 3 | .div => 3 | .mod => 3 | .cmp => 3 | .rload => 3 | .rstore => 3
  | .ja => 5 | .je => 5 | .jb => 5 | .jmp => 5 | .call => 5
  | .load => 6 | .store => 6 | .const => 6

/-- The longest instruction, in bytes (R8). -/
def maxLength : Nat := 6

/-- What the decoder answers. -/
inductive Decoded where
  /-- An instruction, and the bytes after it. -/
  | instr (i : Instr) (rest : List Byte)
  /-- There is no byte to decode. -/
  | noByte
  /-- The opcode byte's table entry is SENTINEL (R71). -/
  | unmapped (op : Byte)
  /-- The opcode byte is mapped, but the instruction's bytes run past the end of the list. -/
  | truncated (m : Mnemonic)
  deriving DecidableEq, Repr

/-- Formats `R` and `N` of R70: one operand byte. -/
def takeByte (k : Byte → Instr) : List Byte → Option (Instr × List Byte)
  | a :: rest => some (k a, rest)
  | [] => none

/-- Format `RR` of R70: two operand bytes. -/
def takeTwoBytes (k : Byte → Byte → Instr) : List Byte → Option (Instr × List Byte)
  | a :: b :: rest => some (k a b, rest)
  | _ => none

/-- Format `W` of R70: one word operand, least significant byte first (R77). -/
def takeWord (k : Word → Instr) : List Byte → Option (Instr × List Byte)
  | a :: b :: c :: d :: rest => some (k (Machine.wordOfBytes a b c d), rest)
  | _ => none

/-- Format `RW` of R70: a register byte and a word operand. -/
def takeByteWord (k : Byte → Word → Instr) : List Byte → Option (Instr × List Byte)
  | r :: a :: b :: c :: d :: rest => some (k r (Machine.wordOfBytes a b c d), rest)
  | _ => none

/-- The operands of a mnemonic, in the byte order of R72, from the bytes after the opcode. -/
def takeOperands (m : Mnemonic) (bs : List Byte) : Option (Instr × List Byte) :=
  match m with
  | .add => takeTwoBytes .add bs
  | .neg => takeByte .neg bs
  | .mul => takeTwoBytes .mul bs
  | .div => takeTwoBytes .div bs
  | .mod => takeTwoBytes .mod bs
  | .cmp => takeTwoBytes .cmp bs
  | .ja => takeWord .ja bs
  | .je => takeWord .je bs
  | .jb => takeWord .jb bs
  | .jmp => takeWord .jmp bs
  | .call => takeWord .call bs
  | .ret => some (.ret, bs)
  | .load => takeByteWord .load bs
  | .store => takeByteWord .store bs
  | .const => takeByteWord .const bs
  | .rload => takeTwoBytes .rload bs
  | .rstore => takeTwoBytes .rstore bs
  | .halt => some (.halt, bs)
  | .int => takeByte .int bs
  | .nop => some (.nop, bs)
  | .push => takeByte .push bs
  | .pushAll => some (.pushAll, bs)
  | .pop => takeByte .pop bs
  | .popAll => some (.popAll, bs)
  | .lsp => takeByte .lsp bs

/-- The decoder (R71, R74): total on any bytes; the opcode byte alone decides the instruction and its length. -/
def decode (ops : OpcodeMap) : List Byte → Decoded
  | [] => .noByte
  | op :: bs =>
    match lookupOpcode ops op with
    | none => .unmapped op
    | some m =>
      match takeOperands m bs with
      | none => .truncated m
      | some (i, rest) => .instr i rest

/-- The four bytes of a word operand, least significant first (R77). -/
def wordBytes (w : Word) : List Byte :=
  [Machine.wordByte w 0, Machine.wordByte w 1, Machine.wordByte w 2, Machine.wordByte w 3]

/-- The operand bytes of an instruction, in the byte order of R72. -/
def operandBytes : Instr → List Byte
  | .add src dst => [src, dst]
  | .neg r => [r]
  | .mul src dst => [src, dst]
  | .div src dst => [src, dst]
  | .mod src dst => [src, dst]
  | .cmp a b => [a, b]
  | .ja t => wordBytes t
  | .je t => wordBytes t
  | .jb t => wordBytes t
  | .jmp t => wordBytes t
  | .call t => wordBytes t
  | .ret => []
  | .load r a => r :: wordBytes a
  | .store r a => r :: wordBytes a
  | .const r w => r :: wordBytes w
  | .rload a d => [a, d]
  | .rstore d a => [d, a]
  | .halt => []
  | .int n => [n]
  | .nop => []
  | .push r => [r]
  | .pushAll => []
  | .pop r => [r]
  | .popAll => []
  | .lsp r => [r]

/-- The encoder (R70): the opcode byte, then the operand bytes. -/
def encode (ops : OpcodeMap) (i : Instr) : List Byte := ops.opcodeOf i.mnemonic :: operandBytes i

/-- The bytes of a word of spec/opcode_table.json, whose bit 0 is the least significant bit of the first byte:
byte `k` is bits 8k+7..8k, bits from `nbits` up are 0, as many bytes as the longest instruction has. -/
def tableBytes (nbits w : Nat) : List Byte :=
  (List.range maxLength).map fun k => BitVec.ofNat 8 (w % 2 ^ nbits / 2 ^ (8 * k))

/-- The instruction the decoder reads from a word of spec/opcode_table.json, under the reference assignment
that the table gives (log 2). -/
def decodeTableWord (nbits w : Nat) : Option Instr :=
  match decode referenceOpcodes (tableBytes nbits w) with
  | .instr i _ => some i
  | .noByte => none
  | .unmapped _ => none
  | .truncated _ => none

end Sys2Proof
end

