-- ==== Sys2Proof/Machine/Launch.lean ====
section
/-!
DEFINITION. What the host gives at initialisation (00_scope.md R9; 70_reset_and_hazards.md R250) and the one
choice of it behind `State.reset`.
-/

namespace Sys2Proof.Machine

/-- `MS` and `SL` from the host's requests (R250), beside the two OPEN parameters (R10). -/
def launchConfig (reqMem reqLimit : Nat) (ops : OpcodeMap) (haltPcAdvance : Fin 2) : Config :=
  { ms := BitVec.ofNat 32 (ceil4 reqMem)
    sl := BitVec.ofNat 32 (ceil4 reqLimit)
    opcodes := ops
    haltPcAdvance := haltPcAdvance }

/-- The legal range of a request (R9). -/
def legalRequest (req : Nat) : Bool := decide (req ≤ 2 ^ 31 - 4)

/-- `REQ_MEM` of `State.reset`: the largest legal request, so that no address of the spec's address space is
left out. DESIGN CHOICE (log 1). -/
def resetReqMem : Nat := 2 ^ 31 - 4

/-- `REQ_LIMIT` of `State.reset`. DESIGN CHOICE (log 1). -/
def resetReqLimit : Nat := 0

/-- `HALT_PC_ADVANCE` of `State.reset`: the spec's reference value (R10). DESIGN CHOICE (log 3). -/
def resetHaltPcAdvance : Fin 2 := 0

/-- The configuration of `State.reset` (log 1, 2, 3). -/
def resetConfig : Config :=
  launchConfig resetReqMem resetReqLimit referenceOpcodes resetHaltPcAdvance

end Sys2Proof.Machine
end

