-- ==== Sys2Proof/Machine/State.lean ====
section
/-!
DEFINITION. The state of the core (10_state.md, opening line and R20 to R38), its values after initialisation
(70_reset_and_hazards.md R251), and the reasons a step can stop.
-/

namespace Sys2Proof.Machine

/-- The five fault flags (R31), each the name of one fault (60_exceptions.md R220). -/
inductive FaultFlag where
  | badInstruction | stackUnderflow | stackOverflow | invalidRegisterIndex | badAccess
  deriving DecidableEq, Repr

/-- The eight flags (R31, R32), in the order of their bits in `FLAGS` (R33). -/
structure Flags where
  badInstruction : Bool
  stackUnderflow : Bool
  stackOverflow : Bool
  invalidRegisterIndex : Bool
  badAccess : Bool
  below : Bool
  equal : Bool
  above : Bool
  deriving DecidableEq, Repr

/-- Why a handler stopped Undefined (41_arithmetic.md R126). -/
inductive UndefinedReason where
  | divideByZero
  deriving DecidableEq, Repr

/-- The run state (R34). -/
inductive RunState where
  | running
  | halted
  | undefined (r : UndefinedReason)
  deriving DecidableEq, Repr

/-- An output event (R35): `Int(v)` or `Str(s)`. -/
inductive Event where
  | int (v : Word)
  | str (s : List Byte)
  deriving DecidableEq, Repr

/-- Memory (R36, R50): the bytes that are not 0, by strictly rising address. An address not listed reads as 0,
which initialisation stores everywhere (R251; log 5). -/
abbrev Memory := List Host.Cell

/-- The full state of the core, with its constant configuration beside it (R37, log 4). -/
structure State where
  /-- The constant configuration; no step writes it. -/
  cfg : Config
  /-- The general registers x[0] to x[3] (R20). -/
  x : Vector Word 4
  /-- The program counter (R24). -/
  pc : Word
  /-- The stack pointer (R29). -/
  sp : Word
  /-- The flags (R31 to R33). -/
  flags : Flags
  /-- The run state (R34). -/
  run : RunState
  /-- The memory (R36). -/
  mem : Memory
  /-- The output sequence, oldest event first (R35). -/
  out : List Event
  deriving DecidableEq, Repr

/-- Why `step` has no next state. Only the fetch raises these (Machine/Fetch.lean); no instruction does. -/
inductive Fault where
  /-- Raised by `step` in a state with run = Halted: "the machine performs no further cycles until
  reinitialized" (R111). Safe: the spec gives no step here. -/
  | halted
  /-- Raised by `step` in a state with run = Undefined(r), which is final (R111, R228). Safe: the spec gives no
  step here. -/
  | undefined (r : UndefinedReason)
  deriving DecidableEq, Repr

/-- Why an instruction has no meaning. -/
inductive Refusal where
  /-- Raised by an arm of `exec` whose instruction has no meaning yet. Safe. No arm raises it now. -/
  | notModelled (mnemonic : String)
  deriving DecidableEq, Repr

/-- What a handler answers. -/
abbrev Result := Host.Outcome State Fault Refusal

/-- The flags after initialisation: "clears all flags" (R251). -/
def Flags.clear : Flags :=
  { badInstruction := false, stackUnderflow := false, stackOverflow := false, invalidRegisterIndex := false,
    badAccess := false, below := false, equal := false, above := false }

/-- The state after initialisation and before loading, for a configuration (R251). -/
def State.init (cfg : Config) : State :=
  { cfg := cfg
    x := Vector.replicate 4 0#32
    pc := 0#32
    sp := cfg.ms
    flags := Flags.clear
    run := .running
    mem := []
    out := [] }

/-- The machine right after reset: R251, for the configuration `resetConfig` (log 1, 2, 3). -/
def State.reset : State := State.init resetConfig

end Sys2Proof.Machine
end

