-- ==== Sys2Proof/Machine/Flags.lean ====
section
/-!
DEFINITION. Every flag computation: setting a fault flag (60_exceptions.md R220), the comparison of CMP
(42_compare_control.md R140), and the packing of `FLAGS` (10_state.md R33).
-/

namespace Sys2Proof.Machine

/-- Reads one fault flag (R31). -/
def Flags.fault (f : Flags) : FaultFlag → Bool
  | .badInstruction => f.badInstruction
  | .stackUnderflow => f.stackUnderflow
  | .stackOverflow => f.stackOverflow
  | .invalidRegisterIndex => f.invalidRegisterIndex
  | .badAccess => f.badAccess

/-- Sets one fault flag and leaves the other seven (R225). -/
def Flags.setFault (f : Flags) : FaultFlag → Flags
  | .badInstruction => { f with badInstruction := true }
  | .stackUnderflow => { f with stackUnderflow := true }
  | .stackOverflow => { f with stackOverflow := true }
  | .invalidRegisterIndex => { f with invalidRegisterIndex := true }
  | .badAccess => { f with badAccess := true }

/-- The comparison flags of CMP on `a` and `b`, signed (R140); the fault flags stay. -/
def Flags.compare (f : Flags) (a b : Word) : Flags :=
  { f with
    below := decide (a.toInt < b.toInt)
    equal := decide (a.toInt = b.toInt)
    above := decide (a.toInt > b.toInt) }

/-- No fault flag is set (R112). -/
def Flags.noFault (f : Flags) : Bool :=
  !(f.badInstruction || f.stackUnderflow || f.stackOverflow || f.invalidRegisterIndex || f.badAccess)

/-- `FLAGS` as one 8-bit word, bits as in the table of R33. -/
def Flags.pack (f : Flags) : BitVec 8 :=
  BitVec.ofBool f.above ++ BitVec.ofBool f.equal ++ BitVec.ofBool f.below ++ BitVec.ofBool f.badAccess ++
    BitVec.ofBool f.invalidRegisterIndex ++ BitVec.ofBool f.stackOverflow ++
    BitVec.ofBool f.stackUnderflow ++ BitVec.ofBool f.badInstruction

end Sys2Proof.Machine
end

