-- ==== Sys2Proof/Machine/Ops.lean ====
section
/-!
DEFINITION. The named operations over memory (20_memory.md R50 to R53), registers, pc, run state and output
(00_scope.md R15, R16; 60_exceptions.md R225, R228), and the stack (20_memory.md R60 to R64). They check
nothing (R54); the checks are in Operands.lean. An address is a plain natural number, the word's bit pattern
(log 10).
-/

namespace Sys2Proof.Machine

/-- The canonical form of memory: addresses strictly rising, and no entry that holds the 0 an unlisted address
reads as. -/
abbrev Memory.wf (m : Memory) : Prop := m.Pairwise (fun c d => c.1 < d.1) ∧ ∀ c ∈ m, c.2 ≠ 0#8

/-- `MemRead(a, 1)` (R51). -/
def Memory.read : Memory → Nat → Byte
  | [], _ => 0#8
  | (k, b) :: rest, a => if k = a then b else Memory.read rest a

/-- Stores one byte, keeping the canonical form. -/
def Memory.write : Memory → Nat → Byte → Memory
  | [], a, v => if v = 0#8 then [] else [(a, v)]
  | (k, b) :: rest, a, v =>
    if k < a then (k, b) :: Memory.write rest a v
    else
      let above := if k = a then rest else (k, b) :: rest
      if v = 0#8 then above else (a, v) :: above

/-- `MemRead(a, 4)` (R52): little-endian. -/
def Memory.readWord (m : Memory) (a : Nat) : Word :=
  wordOfBytes (m.read a) (m.read (a + 1)) (m.read (a + 2)) (m.read (a + 3))

/-- `MemWrite(a, 4, v)` (R53): little-endian. -/
def Memory.writeWord (m : Memory) (a : Nat) (v : Word) : Memory :=
  (((m.write a (wordByte v 0)).write (a + 1) (wordByte v 1)).write (a + 2) (wordByte v 2)).write
    (a + 3) (wordByte v 3)

/-- The `n` bytes from address `a` up. -/
def Memory.readBytes (m : Memory) (a : Nat) : Nat → List Byte
  | 0 => []
  | n + 1 => m.read a :: Memory.readBytes m (a + 1) n

/-- Stores a list of bytes from address `a` up (R252). -/
def Memory.writeBytes (m : Memory) (a : Nat) : List Byte → Memory
  | [] => m
  | b :: bs => Memory.writeBytes (m.write a b) (a + 1) bs

/-- The bytes of a string from address `a` up to the first 0, which is left out (44_system.md R182). `n` is the
number of bytes of memory from `a` up; `none` when there is no 0 among them. -/
def Memory.scanString (m : Memory) : Nat → Nat → Option (List Byte)
  | 0, _ => none
  | n + 1, a => if m.read a = 0#8 then some [] else (Memory.scanString m n (a + 1)).map (m.read a :: ·)

/-- `x[r]` (R15). -/
def State.reg (s : State) (r : Fin 4) : Word := s.x.get r

/-- `x[r] <- v` (R15). -/
def State.setReg (s : State) (r : Fin 4) (v : Word) : State := { s with x := s.x.set r v }

/-- `next()` (40_fetch_dispatch.md R108, R109), `len` the instruction's length. -/
def State.advance (s : State) (len : Nat) : State := { s with pc := s.pc + BitVec.ofNat 32 len }

/-- `pc <- target` (R25). -/
def State.jump (s : State) (target : Word) : State := { s with pc := target }

/-- `raise Fault(F)` (60_exceptions.md R225): TAKING A FAULT. The flag is set and the run is Halted; pc,
registers, sp, memory, output and the other flags stay. Nothing is saved and there is no return from a fault
(R227). -/
def State.raise (s : State) (f : FaultFlag) : State := { s with flags := s.flags.setFault f, run := .halted }

/-- `raise Undefined(r)` (00_scope.md R16; 41_arithmetic.md R126): nothing changes but the run state. -/
def State.raiseUndefined (s : State) (r : UndefinedReason) : State := { s with run := .undefined r }

/-- `halt` (00_scope.md R16). -/
def State.halt (s : State) : State := { s with run := .halted }

/-- `emit(e)` (00_scope.md R16; 44_system.md R183). -/
def State.emit (s : State) (e : Event) : State := { s with out := s.out ++ [e] }

/-- `available()` (R60). -/
def State.available (s : State) : Int := s.sp.toInt - s.cfg.sl.toInt

/-- `occupied()` (R60). -/
def State.occupied (s : State) : Int := s.cfg.ms.toInt - s.sp.toInt

/-- `is_empty()` (R60). -/
abbrev State.isEmpty (s : State) : Prop := s.sp.toInt ≥ s.cfg.ms.toInt

/-- `is_full()` (R60). -/
abbrev State.isFull (s : State) : Prop := s.sp.toInt ≤ s.cfg.sl.toInt

/-- The address the next push stores to: sp - 4 (R61). -/
def State.pushAddr (s : State) : Word := s.sp - 4#32

/-- `push(v)` (R61). -/
def State.push (s : State) (v : Word) : State :=
  { s with sp := s.pushAddr, mem := s.mem.writeWord s.pushAddr.toNat v }

/-- `pop()` (R62), with its empty branch: BAD_ACCESS is set and 0 returned, and the caller must halt. -/
def State.pop (s : State) : Word × State :=
  if s.isEmpty then (0#32, { s with flags := s.flags.setFault .badAccess })
  else (s.mem.readWord s.sp.toNat, { s with sp := s.sp + 4#32 })

/-- `x[r] <- pop()`. -/
def State.popInto (s : State) (r : Fin 4) : State := s.pop.2.setReg r s.pop.1

/-- `push_all()` (R63): register 0 at the highest address. -/
def State.pushAll (s : State) : State :=
  (((s.push (s.reg 0)).push (s.reg 1)).push (s.reg 2)).push (s.reg 3)

/-- `pop_all()` (R64): the inverse of `push_all`. -/
def State.popAll (s : State) : State := (((s.popInto 3).popInto 2).popInto 1).popInto 0

/-- `cstring(v)` (44_system.md R182): `none` when a byte address leaves [0, MS) before the 0. -/
def State.cstring (s : State) (v : Word) : Option (List Byte) :=
  if v.toInt < 0 then none
  else s.mem.scanString (s.cfg.ms.toInt - v.toInt).toNat v.toNat

end Sys2Proof.Machine
end

