-- ==== Sys2Proof/Machine/Operands.lean ====
section
/-!
DEFINITION. What every handler checks before it writes: the length (40_fetch_dispatch.md R104), the register
operands (R105), the stack (20_memory.md R60, R61, R64), the data address (43_data_movement.md R160). Each
check takes the rest of the handler as a continuation, so a handler reads in the order of R106.
-/

namespace Sys2Proof.Machine

/-- The bound of the length check (R104), on mathematical integers (R11). -/
abbrev State.fits (s : State) (len : Nat) : Prop := s.pc.toInt + len ≤ s.cfg.ms.toInt

/-- The length check (R104). -/
def checkLength (len : Nat) (s : State) (k : Result) : Result :=
  if s.fits len then k else .next (s.raise .badAccess)

/-- The register a raw byte names (10_state.md R21). -/
def regOf (b : Byte) : Option (Fin 4) := if h : b.toNat < 4 then some ⟨b.toNat, h⟩ else none

/-- `reg(k)` (R105). -/
def checkReg (b : Byte) (s : State) (k : Fin 4 → Result) : Result :=
  match regOf b with
  | none => .next (s.raise .invalidRegisterIndex)
  | some r => k r

/-- The stack check of the push family: at least `n` free bytes (R61). -/
def checkAvailable (n : Int) (s : State) (k : Result) : Result :=
  if s.available < n then .next (s.raise .stackOverflow) else k

/-- The stack check of the pop family: at least `n` used bytes (R62, R64). -/
def checkOccupied (n : Int) (s : State) (k : Result) : Result :=
  if s.occupied < n then .next (s.raise .stackUnderflow) else k

/-- The bound of the data-address check (R160), on mathematical integers (R11). -/
abbrev State.dataOk (s : State) (ea : Word) : Prop := 0 ≤ ea.toInt ∧ ea.toInt + 4 ≤ s.cfg.ms.toInt

/-- `dataOk(ea)` (R160). -/
def checkData (ea : Word) (s : State) (k : Result) : Result :=
  if s.dataOk ea then k else .next (s.raise .badAccess)

end Sys2Proof.Machine
end

