-- ==== Sys2Proof/Machine/Arithmetic.lean ====
section
/-!
DEFINITION. The arithmetic instructions ADD, NEG, MUL, DIV, MOD (41_arithmetic.md).
-/

namespace Sys2Proof.Machine

/-- ADD (R120): dst += src. -/
def execAdd (src dst : Byte) (s : State) : Result :=
  checkLength 3 s <| checkReg src s fun a => checkReg dst s fun d =>
    .next ((s.setReg d (wrap32 ((s.reg d).toInt + (s.reg a).toInt))).advance 3)

/-- NEG (R121): reg = -reg. -/
def execNeg (r : Byte) (s : State) : Result :=
  checkLength 2 s <| checkReg r s fun d =>
    .next ((s.setReg d (wrap32 (-(s.reg d).toInt))).advance 2)

/-- MUL (R122): dst *= src. -/
def execMul (src dst : Byte) (s : State) : Result :=
  checkLength 3 s <| checkReg src s fun a => checkReg dst s fun d =>
    .next ((s.setReg d (wrap32 ((s.reg d).toInt * (s.reg a).toInt))).advance 3)

/-- DIV (R123): dst /= src, truncated; a divisor x[src] of 0 stops Undefined (R126). -/
def execDiv (src dst : Byte) (s : State) : Result :=
  checkLength 3 s <| checkReg src s fun a => checkReg dst s fun d =>
    if (s.reg a).toInt = 0 then .next (s.raiseUndefined .divideByZero)
    else .next ((s.setReg d (wrap32 (tdiv (s.reg d).toInt (s.reg a).toInt))).advance 3)

/-- MOD (R124): dst = src % dst, operands the other way round than DIV; a divisor x[dst] of 0 stops Undefined
(R126). -/
def execMod (src dst : Byte) (s : State) : Result :=
  checkLength 3 s <| checkReg src s fun a => checkReg dst s fun d =>
    if (s.reg d).toInt = 0 then .next (s.raiseUndefined .divideByZero)
    else .next ((s.setReg d (wrap32 (trem (s.reg a).toInt (s.reg d).toInt))).advance 3)

end Sys2Proof.Machine
end

