-- ==== Sys2Proof/Machine/CompareControl.lean ====
section
/-!
DEFINITION. Comparison and control transfer: CMP, JA, JE, JB, JMP, CALL, RET (42_compare_control.md).
-/

namespace Sys2Proof.Machine

/-- CMP (R140). -/
def execCmp (regA regB : Byte) (s : State) : Result :=
  checkLength 3 s <| checkReg regA s fun a => checkReg regB s fun b =>
    .next (State.advance { s with flags := s.flags.compare (s.reg a) (s.reg b) } 3)

/-- The shared form of JA, JE, JB and JMP (R141 to R144): jump when `taken`, else fall through. -/
def jumpWhen (taken : Bool) (target : Word) (s : State) : Result :=
  checkLength 5 s <| if taken then .next (s.jump target) else .next (s.advance 5)

/-- JA (R141): reads COMPARISON_ABOVE. -/
def execJa (target : Word) (s : State) : Result := jumpWhen s.flags.above target s

/-- JE (R142): reads COMPARISON_EQUAL. -/
def execJe (target : Word) (s : State) : Result := jumpWhen s.flags.equal target s

/-- JB (R143): reads COMPARISON_BELOW. -/
def execJb (target : Word) (s : State) : Result := jumpWhen s.flags.below target s

/-- JMP (R144). -/
def execJmp (target : Word) (s : State) : Result := jumpWhen true target s

/-- CALL (R145): pushes pc + 5, then jumps. -/
def execCall (target : Word) (s : State) : Result :=
  checkLength 5 s <| checkAvailable 4 s <| .next ((s.push (s.pc + 5#32)).jump target)

/-- RET (R146): pops pc. -/
def execRet (s : State) : Result :=
  checkLength 1 s <| checkOccupied 4 s <| .next (s.pop.2.jump s.pop.1)

end Sys2Proof.Machine
end

