-- ==== Sys2Proof/Machine/DataMovement.lean ====
section
/-!
DEFINITION. Data movement: LOAD, STORE, CONST, RLOAD, RSTORE (43_data_movement.md).
-/

namespace Sys2Proof.Machine

/-- LOAD (R161). -/
def execLoad (r : Byte) (ea : Word) (s : State) : Result :=
  checkLength 6 s <| checkReg r s fun d => checkData ea s <|
    .next ((s.setReg d (s.mem.readWord ea.toNat)).advance 6)

/-- STORE (R162). -/
def execStore (r : Byte) (ea : Word) (s : State) : Result :=
  checkLength 6 s <| checkReg r s fun d => checkData ea s <|
    .next (State.advance { s with mem := s.mem.writeWord ea.toNat (s.reg d) } 6)

/-- CONST (R163). -/
def execConst (r : Byte) (imm : Word) (s : State) : Result :=
  checkLength 6 s <| checkReg r s fun d => .next ((s.setReg d imm).advance 6)

/-- RLOAD (R164): the address register comes first. -/
def execRload (addrReg dataReg : Byte) (s : State) : Result :=
  checkLength 3 s <| checkReg addrReg s fun a => checkReg dataReg s fun d => checkData (s.reg a) s <|
    .next ((s.setReg d (s.mem.readWord (s.reg a).toNat)).advance 3)

/-- RSTORE (R165): the data register comes first; pc advances by 3. -/
def execRstore (dataReg addrReg : Byte) (s : State) : Result :=
  checkLength 3 s <| checkReg dataReg s fun d => checkReg addrReg s fun a => checkData (s.reg a) s <|
    .next (State.advance { s with mem := s.mem.writeWord (s.reg a).toNat (s.reg d) } 3)

end Sys2Proof.Machine
end

