-- ==== Sys2Proof/Machine/Stack.lean ====
section
/-!
DEFINITION. Stack instructions: PUSH, PUSH_ALL, POP, POP_ALL, LSP (45_stack.md).
-/

namespace Sys2Proof.Machine

/-- PUSH (R200). -/
def execPush (r : Byte) (s : State) : Result :=
  checkLength 2 s <| checkReg r s fun d => checkAvailable 4 s <| .next ((s.push (s.reg d)).advance 2)

/-- PUSH_ALL (R201). -/
def execPushAll (s : State) : Result :=
  checkLength 1 s <| checkAvailable 16 s <| .next (s.pushAll.advance 1)

/-- POP (R202). -/
def execPop (r : Byte) (s : State) : Result :=
  checkLength 2 s <| checkReg r s fun d => checkOccupied 4 s <| .next ((s.popInto d).advance 2)

/-- POP_ALL (R203). -/
def execPopAll (s : State) : Result :=
  checkLength 1 s <| checkOccupied 16 s <| .next (s.popAll.advance 1)

/-- LSP (R204). -/
def execLsp (r : Byte) (s : State) : Result :=
  checkLength 2 s <| checkReg r s fun d => .next ((s.setReg d s.sp).advance 2)

end Sys2Proof.Machine
end

