-- ==== Sys2Proof/Machine/System.lean ====
section
/-!
DEFINITION. System instructions: HALT, INT, NOP (44_system.md).
-/

namespace Sys2Proof.Machine

/-- HALT (R180): pc advances by `HALT_PC_ADVANCE`; the run ends with no flag. -/
def execHalt (s : State) : Result :=
  checkLength 1 s <| .next (s.advance s.cfg.haltPcAdvance.val).halt

/-- INT (R181): the number is checked first, then the stack, then for INT 2 the string (R182). The host service
is the output event (R183). -/
def execInt (n : Byte) (s : State) : Result :=
  checkLength 2 s <|
    if n ≠ 1#8 ∧ n ≠ 2#8 then .next (s.raise .badInstruction)
    else if s.isEmpty then .next (s.raise .badAccess)
    else if n = 1#8 then .next ((s.pop.2.emit (.int s.pop.1)).advance 2)
    else
      match s.cstring s.pop.1 with
      | none => .next (s.raise .badAccess)
      | some str => .next ((s.pop.2.emit (.str str)).advance 2)

/-- NOP (R184). -/
def execNop (s : State) : Result := checkLength 1 s <| .next (s.advance 1)

end Sys2Proof.Machine
end

