-- ==== Sys2Proof/Machine/Dispatch.lean ====
section
/-! DEFINITION. The handler of each instruction (40_fetch_dispatch.md R103): one arm per constructor of Instr. -/

namespace Sys2Proof.Machine

def exec (i : Instr) (s : State) : Host.Outcome State Fault Refusal :=
  match i with
  | .add src dst => Sys2Proof.Machine.execAdd src dst s
  | .neg r => Sys2Proof.Machine.execNeg r s
  | .mul src dst => Sys2Proof.Machine.execMul src dst s
  | .div src dst => Sys2Proof.Machine.execDiv src dst s
  | .mod src dst => Sys2Proof.Machine.execMod src dst s
  | .cmp a b => Sys2Proof.Machine.execCmp a b s
  | .ja t => Sys2Proof.Machine.execJa t s
  | .je t => Sys2Proof.Machine.execJe t s
  | .jb t => Sys2Proof.Machine.execJb t s
  | .jmp t => Sys2Proof.Machine.execJmp t s
  | .call t => Sys2Proof.Machine.execCall t s
  | .ret => Sys2Proof.Machine.execRet s
  | .load r a => Sys2Proof.Machine.execLoad r a s
  | .store r a => Sys2Proof.Machine.execStore r a s
  | .const r w => Sys2Proof.Machine.execConst r w s
  | .rload a d => Sys2Proof.Machine.execRload a d s
  | .rstore d a => Sys2Proof.Machine.execRstore d a s
  | .halt => Sys2Proof.Machine.execHalt s
  | .int n => Sys2Proof.Machine.execInt n s
  | .nop => Sys2Proof.Machine.execNop s
  | .push r => Sys2Proof.Machine.execPush r s
  | .pushAll => Sys2Proof.Machine.execPushAll s
  | .pop r => Sys2Proof.Machine.execPop r s
  | .popAll => Sys2Proof.Machine.execPopAll s
  | .lsp r => Sys2Proof.Machine.execLsp r s

end Sys2Proof.Machine
end

