-- ==== Sys2Proof/Machine/Fetch.lean ====
section
/-!
DEFINITION. The fetch-execute cycle up to the handler (40_fetch_dispatch.md R100 to R104, R110, R111), the
host's load (70_reset_and_hazards.md R252) and the placing of one instruction where the next step fetches.
-/

namespace Sys2Proof.Machine

/-- What a cycle does once it has fetched. -/
inductive Fetched where
  /-- Run this instruction's handler (R103). -/
  | run (i : Instr)
  /-- Raise this fault; no handler runs (R101, R102, R104). -/
  | raise (f : FaultFlag)
  /-- There is no step: the run is over (R111). -/
  | stop (f : Fault)
  deriving DecidableEq, Repr

/-- The bytes of memory from pc up, at most as many as the longest instruction has and never past MS; none when
pc is outside [0, MS) (R101, R104; log 9). -/
def fetchWindow (s : State) : List Byte :=
  if 0 ≤ s.pc.toInt ∧ s.pc.toInt < s.cfg.ms.toInt then
    s.mem.readBytes s.pc.toNat (min maxLength (s.cfg.ms.toInt - s.pc.toInt).toNat)
  else []

/-- Cycle steps 1 to 4 (R101, R102, R104, R110): the range of pc, the opcode table, the length check, in this
order; and no cycle at all unless run = Running (R111). -/
def fetch (s : State) : Fetched :=
  match s.run with
  | .halted => .stop .halted
  | .undefined r => .stop (.undefined r)
  | .running =>
    match decode s.cfg.opcodes (fetchWindow s) with
    | .noByte => .raise .badAccess
    | .unmapped _ => .raise .badInstruction
    | .truncated _ => .raise .badAccess
    | .instr i _ => .run i

/-- Stores bytes from address `a` up, those below MS only. -/
def placeBytes (s : State) (a : Nat) (bs : List Byte) : State :=
  { s with mem := s.mem.writeBytes a (bs.take (s.cfg.ms.toInt.toNat - a)) }

/-- The host's load (R252): the image at address 0. Its precondition is `PROG_LEN <= MS` (R9). -/
def State.load (s : State) (image : List Byte) : State := placeBytes s 0 image

end Sys2Proof.Machine
end

