-- ==== Sys2Proof/Machine/Step.lean ====
section
/-! DEFINITION. One step of the core (40_fetch_dispatch.md R110): fetch, then the instruction's handler. -/

namespace Sys2Proof.Machine

/-- One step (R110). In a state whose run is over there is none (R111). -/
def step (s : State) : Host.Outcome State Fault Refusal :=
  match fetch s with
  | .run i => exec i s
  | .raise f => .next (s.raise f)
  | .stop f => .fault f

/-- `s` with one instruction of spec/opcode_table.json stored where `step` fetches next, at pc (log 11). -/
def State.withFetchWord (s : State) (nbits w : Nat) : State := placeBytes s s.pc.toNat (tableBytes nbits w)

end Sys2Proof.Machine
end

