-- ==== Sys2Proof/Machine/HostOps.lean ====
section
/-!
DEFINITION. What the host may do with the core besides running it (70_reset_and_hazards.md R262): a launch
(initialise and load, R250 to R252) and the diagnostics snapshot (60_exceptions.md R235).
-/

namespace Sys2Proof.Machine

/-- The host's launch: initialisation (R250, R251), then loading (R252). -/
def launch (reqMem reqLimit : Nat) (ops : OpcodeMap) (haltPcAdvance : Fin 2) (image : List Byte) : State :=
  (State.init (launchConfig reqMem reqLimit ops haltPcAdvance)).load image

/-- The preconditions of a launch (00_scope.md R9, 30_encoding.md R73). -/
def legalLaunch (reqMem reqLimit : Nat) (ops : OpcodeMap) (image : List Byte) : Bool :=
  legalRequest reqMem && legalRequest reqLimit && ops.legal && decide (image.length ≤ ceil4 reqMem)

/-- The diagnostics snapshot (R235): 8 flags, 4 registers and run. -/
structure Snapshot where
  flags : Flags
  x : Vector Word 4
  run : RunState
  deriving DecidableEq, Repr

/-- Reads the snapshot; the core does not change (R235). -/
def State.snapshot (s : State) : Snapshot := { flags := s.flags, x := s.x, run := s.run }

end Sys2Proof.Machine
end

