-- ==== Sys2Proof/Safety.lean ====
section
/-!
DEFINITION. The words the claims use: how a run ends (40_fetch_dispatch.md R112), the invariant of the core
(10_state.md R30, R32, R35, R38; 60_exceptions.md R223; 20_memory.md R50), which registers an instruction reads
and writes (10_state.md R22), and runs of handlers one after the other.
-/

namespace Sys2Proof.Machine

/-- A clean end of run (R112): Halted, and no fault flag is set. -/
abbrev State.cleanEnd (s : State) : Prop := s.run = .halted ∧ s.flags.noFault = true

/-- Any other end of run (R112): Halted with a fault flag set, or Undefined. -/
abbrev State.failedEnd (s : State) : Prop := s.run ≠ .running ∧ ¬ s.cleanEnd

/-- The outcome is a next state in which the run is Halted and the fault's flag is set (R103). What else a
fault leaves unchanged is stated apart, because the spec marks that as its own decision. -/
def raises (o : Result) (f : FaultFlag) : Prop :=
  ∃ t, o = .next t ∧ t.run = .halted ∧ t.flags.fault f = true

/-- The five fault flags (R31). -/
def FaultFlag.all : List FaultFlag :=
  [.badInstruction, .stackUnderflow, .stackOverflow, .invalidRegisterIndex, .badAccess]

/-- Every listed cell lies in [0, MS) (R36, R50). -/
abbrev State.memInRange (s : State) : Prop := ∀ c ∈ s.mem, (c.1 : Int) < s.cfg.ms.toInt

/-- sp is a multiple of 4 in [min(SL, MS), MS] (R30, R38). -/
abbrev State.spInRange (s : State) : Prop :=
  s.sp.toInt % 4 = 0 ∧ min s.cfg.sl.toInt s.cfg.ms.toInt ≤ s.sp.toInt ∧ s.sp.toInt ≤ s.cfg.ms.toInt

/-- At most one comparison flag is set (R32, R38). -/
abbrev Flags.comparisonExclusive (f : Flags) : Prop :=
  (f.below && f.equal) = false ∧ (f.below && f.above) = false ∧ (f.equal && f.above) = false

/-- At most one fault flag is set, and none unless the run is Halted (R223; 90_conflicts.md C8). -/
abbrev State.faultsConsistent (s : State) : Prop :=
  (s.run = .halted ∨ s.flags.noFault = true) ∧
    ∀ f ∈ FaultFlag.all, ∀ g ∈ FaultFlag.all, s.flags.fault f = true → s.flags.fault g = true → f = g

/-- A string event holds no zero byte (R35). -/
def Event.wf : Event → Bool
  | .int _ => true
  | .str bs => bs.all (· != 0#8)

/-- The invariant of the core: it holds after every legal launch and every step keeps it. -/
abbrev State.inv (s : State) : Prop :=
  s.cfg.legal = true ∧ s.mem.wf ∧ s.memInRange ∧ s.spInRange ∧ s.flags.comparisonExclusive ∧
    s.faultsConsistent ∧ s.out.all Event.wf = true

/-- The register bytes an instruction reads (the table of R22). -/
def readsRegs : Instr → List Byte
  | .add src dst => [src, dst]
  | .mul src dst => [src, dst]
  | .div src dst => [src, dst]
  | .mod src dst => [src, dst]
  | .neg r => [r]
  | .cmp a b => [a, b]
  | .load _ _ => []
  | .store r _ => [r]
  | .const _ _ => []
  | .rload a _ => [a]
  | .rstore d a => [d, a]
  | .push r => [r]
  | .pushAll => [0#8, 1#8, 2#8, 3#8]
  | .pop _ => []
  | .popAll => []
  | .lsp _ => []
  | .ja _ => []
  | .je _ => []
  | .jb _ => []
  | .jmp _ => []
  | .call _ => []
  | .ret => []
  | .halt => []
  | .int _ => []
  | .nop => []

/-- The register bytes an instruction writes (the table of R22). -/
def writesRegs : Instr → List Byte
  | .add _ dst => [dst]
  | .mul _ dst => [dst]
  | .div _ dst => [dst]
  | .mod _ dst => [dst]
  | .neg r => [r]
  | .cmp _ _ => []
  | .load r _ => [r]
  | .store _ _ => []
  | .const r _ => [r]
  | .rload _ d => [d]
  | .rstore _ _ => []
  | .push _ => []
  | .pushAll => []
  | .pop r => [r]
  | .popAll => [0#8, 1#8, 2#8, 3#8]
  | .lsp r => [r]
  | .ja _ => []
  | .je _ => []
  | .jb _ => []
  | .jmp _ => []
  | .call _ => []
  | .ret => []
  | .halt => []
  | .int _ => []
  | .nop => []

/-- Where a control transfer goes (42_compare_control.md R141 to R147): the target of JMP and CALL, the target of
JA, JE and JB when their flag is set, the word on top of the stack for RET; nowhere for any other. -/
def transferTarget (i : Instr) (s : State) : Option Word :=
  match i with
  | .ja target => if s.flags.above then some target else none
  | .je target => if s.flags.equal then some target else none
  | .jb target => if s.flags.below then some target else none
  | .jmp target => some target
  | .call target => some target
  | .ret => some (s.mem.readWord s.sp.toNat)
  | .add _ _ => none
  | .neg _ => none
  | .mul _ _ => none
  | .div _ _ => none
  | .mod _ _ => none
  | .cmp _ _ => none
  | .load _ _ => none
  | .store _ _ => none
  | .const _ _ => none
  | .rload _ _ => none
  | .rstore _ _ => none
  | .halt => none
  | .int _ => none
  | .nop => none
  | .push _ => none
  | .pushAll => none
  | .pop _ => none
  | .popAll => none
  | .lsp _ => none

/-- The byte list names register `r`. -/
def namesReg (bs : List Byte) (r : Fin 4) : Prop := ∃ b ∈ bs, b.toNat = r.val

/-- Handlers one after the other, stopping at the first that has no next state. -/
def execList : List Instr → State → Result
  | [], s => .next s
  | i :: is, s =>
    match exec i s with
    | .next t => execList is t
    | .fault f => .fault f
    | .refused r => .refused r

end Sys2Proof.Machine
end

