-- ==== Sys2Proof/Certificates/Slice0/Obligations.lean ====
section
/-!
DEFINITION. The statements for the provers. Each docstring says which sentence of the spec a statement
formalises. A statement whose docstring names a decision (Dn of 92_eei_decisions.md), a derivation or general
knowledge rests on the spec's own inference there, and its basis is 'derived'.
-/

open Sys2Proof Sys2Proof.Machine

/-- The fault every handler raises before anything else (R104): BAD_ACCESS when the `len` bytes of the
instruction run past MS. -/
def faultsWhenCutOff (i : Instr) (len : Nat) (s : State) : Prop :=
  s.cfg.ms.toInt < s.pc.toInt + len → raises (exec i s) .badAccess

/-- The two faults every handler with register operands may raise before anything else (R104, R105):
BAD_ACCESS when the `len` bytes of the instruction run past MS, and else INVALID_REGISTER_INDEX when a register
byte is above 3. -/
def stopsBeforeRunning (i : Instr) (len : Nat) (s : State) : Prop :=
  faultsWhenCutOff i len s ∧
    (s.pc.toInt + len ≤ s.cfg.ms.toInt → (∃ b ∈ i.regBytes, 3 < b.toNat) →
      raises (exec i s) .invalidRegisterIndex)

/-- A running state whose pc lies outside [0, MS) faults with BAD_ACCESS at its next fetch (R101). -/
def faultsAtNextFetchIfOutside (t : State) : Prop :=
  t.run = .running → (t.pc.toInt < 0 ∨ t.cfg.ms.toInt ≤ t.pc.toInt) → raises (step t) .badAccess

/-- From `s` the run stopped in `t` and nothing else changed but, for a fault, its flag (R225, R126; decisions
D5, D9, D12). -/
def stopsPrecisely (s t : State) : Prop :=
  (∃ f, t = { s with flags := s.flags.setFault f, run := .halted } ∧ t.flags.fault f = true ∧
      ∀ g, g ≠ f → t.flags.fault g = s.flags.fault g) ∨
    t = { s with run := .undefined .divideByZero }

/-- From `s` a HALT led to `t`: only pc and run changed (R180; decision D10). -/
def haltsAfter (s t : State) : Prop :=
  t = { s with pc := s.pc + BitVec.ofNat 32 s.cfg.haltPcAdvance.val, run := .halted }

/-- The four bytes of a word operand, written out from R77: byte k is floor(u / 2^(8k)) mod 2^8, u the word's
bits as a natural number. -/
def littleEndian (w : Word) : List Byte :=
  [BitVec.ofNat 8 (w.toNat % 2 ^ 8), BitVec.ofNat 8 (w.toNat / 2 ^ 8 % 2 ^ 8),
    BitVec.ofNat 8 (w.toNat / 2 ^ 16 % 2 ^ 8), BitVec.ofNat 8 (w.toNat / 2 ^ 24 % 2 ^ 8)]

/-- The word starting at `a` is 4 bytes, and `b` is none of them. -/
def outsideWord (a b : Nat) : Prop := b < a ∨ a + 4 ≤ b

/-! ### Encoding and decoding -/

/-- R70 to R77: decoding the encoding of ANY instruction, with any operand bytes, gives it back, for every
opcode map that meets R73, whatever bytes follow. -/
def Obligations.DecodeOfEncodeIsTheInstruction : Prop :=
  ∀ (ops : OpcodeMap) (i : Instr) (rest : List Byte), ops.legal = true →
    decode ops (encode ops i ++ rest) = .instr i rest

/-- R70 to R77, the other way: bytes that decode to an instruction are that instruction's encoding, so no bit
of them is ignored; for every opcode map. -/
def Obligations.DecodedBytesAreTheEncoding : Prop :=
  ∀ (ops : OpcodeMap) (bytes rest : List Byte) (i : Instr),
    decode ops bytes = .instr i rest → bytes = encode ops i ++ rest

/-- R74: "The descriptor gives the length L, and no other byte affects it." The opcode byte alone decides
which mnemonic is decoded, how many bytes it takes, and whether the bytes at hand are too few. -/
def Obligations.OpcodeByteAloneFixesMnemonicAndLength : Prop :=
  ∀ (ops : OpcodeMap) (op : Byte) (bs : List Byte) (m : Mnemonic), lookupOpcode ops op = some m →
    (bs.length + 1 < lengthOf m → decode ops (op :: bs) = .truncated m) ∧
      (lengthOf m ≤ bs.length + 1 →
        ∃ i, i.mnemonic = m ∧ decode ops (op :: bs) = .instr i (bs.drop (lengthOf m - 1)))

/-- R71: "The opcode table maps each of the 256 byte values to one of two things": a mnemonic whose opcode byte
it is, or SENTINEL, exactly when it is no mnemonic's; a SENTINEL byte is rejected by name whatever follows; and
no step changes the table. -/
def Obligations.OpcodeTableMapsMnemonicOrSentinel : Prop :=
  (∀ (ops : OpcodeMap) (m : Mnemonic), ops.legal = true → lookupOpcode ops (ops.opcodeOf m) = some m) ∧
    (∀ (ops : OpcodeMap) (b : Byte), lookupOpcode ops b = none ↔ ∀ m, ops.opcodeOf m ≠ b) ∧
    (∀ (ops : OpcodeMap) (b : Byte) (bs : List Byte), lookupOpcode ops b = none →
      decode ops (b :: bs) = .unmapped b) ∧
    ∀ s t : State, step s = .next t → t.cfg.opcodes = s.cfg.opcodes

/-- R73 (decision D1): under every legal opcode map exactly 231 of the 256 byte values are SENTINEL, 0x99 among
them. -/
def Obligations.LegalMapsLeave231SentinelBytes : Prop :=
  ∀ ops : OpcodeMap, ops.legal = true →
    ((List.range 256).filter fun n => (lookupOpcode ops (BitVec.ofNat 8 n)).isNone).length = 231 ∧
      lookupOpcode ops 0x99#8 = none

/-- R72 and 95_test_vectors.md: a few words written out byte by byte from the spec decode to the instruction
they stand for, under the reference assignment (decision D1; log 2). -/
def Obligations.SpecWordsDecodeToTheirInstructions : Prop :=
  decode referenceOpcodes [0x01, 0x01, 0x02] = .instr (.add 1 2) [] ∧
    decode referenceOpcodes [0x08, 0x15, 0x00, 0x00, 0x00] = .instr (.je 21) [] ∧
    decode referenceOpcodes [0x0D, 0x02, 0x40, 0x00, 0x00, 0x00] = .instr (.load 2 64) [] ∧
    decode referenceOpcodes [0x11, 0x01, 0x00] = .instr (.rstore 1 0) [] ∧
    decode referenceOpcodes [0x13, 0x02] = .instr (.int 2) [] ∧
    decode referenceOpcodes [0x16] = .instr .pushAll []

/-! ### Memory and words -/

/-- R52 and R77 (two's complement from the spec's general knowledge, G2): the word read at `a` is the
little-endian number of its four bytes, taken as a signed 32-bit value. -/
def Obligations.ReadWordIsLittleEndianSigned : Prop :=
  ∀ (m : Memory) (a : Nat),
    let u : Nat := (m.read a).toNat + 2 ^ 8 * (m.read (a + 1)).toNat + 2 ^ 16 * (m.read (a + 2)).toNat +
      2 ^ 24 * (m.read (a + 3)).toNat
    (m.readWord a).toInt = if u < 2 ^ 31 then (u : Int) else (u : Int) - 2 ^ 32

/-- R53: "So `MemRead(a, 4)` after `MemWrite(a, 4, v)` returns exactly v." The four bytes are those of v, least
significant first, and no other byte changes. The memory is in its canonical form, which is an invariant
(StepKeepsTheInvariant). -/
def Obligations.WriteWordStoresLittleEndianBytes : Prop :=
  ∀ (m : Memory) (a : Nat) (v : Word), m.wf →
    (m.writeWord a v).readWord a = v ∧
      (∀ k, k < 4 → ((m.writeWord a v).read (a + k)).toNat = v.toNat / 2 ^ (8 * k) % 2 ^ 8) ∧
      ∀ b, outsideWord a b → (m.writeWord a v).read b = m.read b

/-! ### The cycle -/

/-- R103, R110: when the bytes at pc decode to an instruction, well formed or not, the step is exactly its
handler: the core adds nothing around it. The bytes are those from pc up to the sixth or to MS. -/
def Obligations.StepRunsTheDecodedInstruction : Prop :=
  ∀ (s : State) (i : Instr) (rest : List Byte), s.run = .running →
    0 ≤ s.pc.toInt → s.pc.toInt < s.cfg.ms.toInt →
    decode s.cfg.opcodes (s.mem.readBytes s.pc.toNat (min 6 (s.cfg.ms.toInt - s.pc.toInt).toNat)) =
      .instr i rest →
    step s = exec i s

/-- R24, R100, R110: a running core whose memory holds the encoding of an instruction at pc, inside [0, MS),
runs exactly that instruction. -/
def Obligations.StepRunsTheInstructionStoredAtPc : Prop :=
  ∀ (s : State) (i : Instr), s.cfg.opcodes.legal = true → s.run = .running → 0 ≤ s.pc.toInt →
    s.pc.toInt + lengthOf i.mnemonic ≤ s.cfg.ms.toInt →
    (∀ k, k < lengthOf i.mnemonic →
      (encode s.cfg.opcodes i)[k]? = some (s.mem.read (s.pc.toNat + k))) →
    step s = exec i s

/-- R101: "If `pc < 0` or `pc >= MS`, the core raises `Fault(BAD_ACCESS)`, and pc keeps its out-of-range
value." -/
def Obligations.PcOutOfRangeRaisesBadAccess : Prop :=
  ∀ s : State, s.run = .running → (s.pc.toInt < 0 ∨ s.cfg.ms.toInt ≤ s.pc.toInt) →
    ∃ t, step s = .next t ∧ t.run = .halted ∧ t.flags.badAccess = true ∧ t.pc = s.pc

/-- R102: "If `e = SENTINEL`, it raises `Fault(BAD_INSTRUCTION)` with pc unchanged." -/
def Obligations.UnmappedOpcodeRaisesBadInstruction : Prop :=
  ∀ s : State, s.run = .running → 0 ≤ s.pc.toInt → s.pc.toInt < s.cfg.ms.toInt →
    lookupOpcode s.cfg.opcodes (s.mem.read s.pc.toNat) = none →
    ∃ t, step s = .next t ∧ t.run = .halted ∧ t.flags.badInstruction = true ∧ t.pc = s.pc

/-- R104: "If `pc + L > MS`, computed on mathematical integers, the handler raises `Fault(BAD_ACCESS)`." At the
step the opcode byte alone decides it, no operand byte is consulted; every handler checks it before anything
else, whatever its operands; and for L = 1 it always passes once pc < MS. -/
def Obligations.LengthCheckRaisesBadAccess : Prop :=
  (∀ (s : State) (m : Mnemonic), s.run = .running → 0 ≤ s.pc.toInt → s.pc.toInt < s.cfg.ms.toInt →
      lookupOpcode s.cfg.opcodes (s.mem.read s.pc.toNat) = some m →
      s.cfg.ms.toInt < s.pc.toInt + lengthOf m → step s = .next (s.raise .badAccess)) ∧
    (∀ (i : Instr) (s : State), s.cfg.ms.toInt < s.pc.toInt + lengthOf i.mnemonic →
      exec i s = .next (s.raise .badAccess)) ∧
    ∀ (s : State) (m : Mnemonic), lengthOf m = 1 → s.pc.toInt < s.cfg.ms.toInt →
      s.pc.toInt + lengthOf m ≤ s.cfg.ms.toInt

/-- R21: "The byte names register `x[b]` when b is in {0, 1, 2, 3}. All other values (4 to 255) are invalid."
Every handler with a register operand treats an invalid byte as a fault once the length check has passed. -/
def Obligations.RegisterByteNamesARegisterOrFaults : Prop :=
  (∀ (b : Byte) (r : Fin 4), regOf b = some r ↔ b.toNat = r.val) ∧
    (∀ b : Byte, regOf b = none ↔ 4 ≤ b.toNat) ∧
    ∀ (i : Instr) (s : State), s.pc.toInt + lengthOf i.mnemonic ≤ s.cfg.ms.toInt →
      (∃ b ∈ i.regBytes, 4 ≤ b.toNat) → raises (exec i s) .invalidRegisterIndex

/-- R103, R224, R225, R126 (decisions D5, D9, D12): the four ways a handler, and with it a step, ends. It
completes and the run goes on; or one fault is raised, and the state is the old one with that flag set and run
Halted; or it stops Undefined, and only run changes; or it is HALT, and only run and pc change. The two faults
of the fetch (R101, R102) and the length fault at the step (R104) are precise as well: nothing but the flag and
run changes. -/
def Obligations.HandlersEndInOneOfFourWaysAndFaultsArePrecise : Prop :=
  (∀ (i : Instr) (s : State), s.run = .running → ∃ t, exec i s = .next t ∧
      (t.run = .running ∨ stopsPrecisely s t ∨ (i = .halt ∧ haltsAfter s t))) ∧
    (∀ s : State, s.run = .running → ∃ t, step s = .next t ∧
      (t.run = .running ∨ stopsPrecisely s t ∨ (fetch s = .run .halt ∧ haltsAfter s t))) ∧
    (∀ s : State, s.run = .running → (s.pc.toInt < 0 ∨ s.cfg.ms.toInt ≤ s.pc.toInt) →
      step s = .next { s with flags := s.flags.setFault .badAccess, run := .halted }) ∧
    ∀ s : State, s.run = .running → 0 ≤ s.pc.toInt → s.pc.toInt < s.cfg.ms.toInt →
      (lookupOpcode s.cfg.opcodes (s.mem.read s.pc.toNat) = none →
        step s = .next { s with flags := s.flags.setFault .badInstruction, run := .halted }) ∧
        ∀ m : Mnemonic, lookupOpcode s.cfg.opcodes (s.mem.read s.pc.toNat) = some m →
          s.cfg.ms.toInt < s.pc.toInt + lengthOf m →
          step s = .next { s with flags := s.flags.setFault .badAccess, run := .halted }

/-- R111 and R113 (derived; decision D20): a running state has exactly one successor, and a Halted or Undefined
state has none. -/
def Obligations.ExactlyTheRunningStatesHaveOneSuccessor : Prop :=
  (∀ s : State, s.run = .running → ∃ t, step s = .next t ∧ ∀ u, step s = .next u → u = t) ∧
    (∀ s : State, s.run = .halted → step s = .fault .halted) ∧
    ∀ (s : State) (r : UndefinedReason), s.run = .undefined r → step s = .fault (.undefined r)

/-- R112, R235 (decision D26 for run): a step of a core that meets the invariant ends the run cleanly exactly
when the fetched instruction is HALT, and the host reads that off the diagnostics snapshot, which shows the eight
flags, the four registers and run as they are. The premise rules out running states in which a fault flag is
already set, which no run reaches. -/
def Obligations.RunsEndCleanlyExactlyAtHalt : Prop :=
  (∀ s t : State, s.inv → step s = .next t →
      (t.cleanEnd ↔ fetch s = .run .halt) ∧
        (fetch s = .run .halt ↔ t.snapshot.run = .halted ∧ t.snapshot.flags.noFault = true)) ∧
    ∀ s : State, s.snapshot = { flags := s.flags, x := s.x, run := s.run }

/-! ### State: what changes and what does not -/

/-- R31: the fault flags are "sticky, never auto-cleared". A fault sets its flag; no step clears one;
initialisation clears all; the diagnostics snapshot shows them; and no instruction reads one: setting a flag
beforehand changes nothing else. -/
def Obligations.FaultFlagsAreStickyAndUnread : Prop :=
  (∀ (s : State) (f : FaultFlag), (s.raise f).flags.fault f = true) ∧
    (∀ (s t : State) (f : FaultFlag), step s = .next t → s.flags.fault f = true →
      t.flags.fault f = true) ∧
    (∀ (c : Config) (f : FaultFlag), (State.init c).flags.fault f = false) ∧
    (∀ (s : State) (f : FaultFlag), s.snapshot.flags.fault f = s.flags.fault f) ∧
    ∀ (i : Instr) (s : State) (f : FaultFlag), ∃ t, exec i s = .next t ∧
      exec i { s with flags := s.flags.setFault f } = .next { t with flags := t.flags.setFault f }

/-- R32, R125 (derived): flag frame. A handler that completes leaves every flag as it was, CMP excepted, and CMP
leaves the fault flags; one that stops leaves the comparison flags, CMP included. -/
def Obligations.FlagsChangeOnlyByCmpAndByFaults : Prop :=
  ∀ (i : Instr) (s t : State), s.run = .running → exec i s = .next t →
    (t.run = .running → i.mnemonic ≠ .cmp → t.flags = s.flags) ∧
      (t.run = .running → ∀ f, t.flags.fault f = s.flags.fault f) ∧
      (t.run ≠ .running → t.flags.below = s.flags.below ∧ t.flags.equal = s.flags.equal ∧
        t.flags.above = s.flags.above)

/-- R33 (decision D17): the bits of FLAGS. -/
def Obligations.FlagsPackIntoTheirBits : Prop :=
  ∀ f : Flags,
    f.pack.getLsbD 0 = f.badInstruction ∧ f.pack.getLsbD 1 = f.stackUnderflow ∧
      f.pack.getLsbD 2 = f.stackOverflow ∧ f.pack.getLsbD 3 = f.invalidRegisterIndex ∧
      f.pack.getLsbD 4 = f.badAccess ∧ f.pack.getLsbD 5 = f.below ∧
      f.pack.getLsbD 6 = f.equal ∧ f.pack.getLsbD 7 = f.above

/-- R22 (derived), the column "writes": register frame of all 25 instructions. A register that is no
destination keeps its value. -/
def Obligations.OnlyDestinationRegistersChange : Prop :=
  ∀ (i : Instr) (s t : State) (r : Fin 4), exec i s = .next t → ¬ namesReg (writesRegs i) r →
    t.reg r = s.reg r

/-- R22 (derived), the column "reads": a register an instruction does not read has no influence on what it
does. Changing it beforehand changes nothing in the next state but that register. -/
def Obligations.UnreadRegistersHaveNoInfluence : Prop :=
  ∀ (i : Instr) (s : State) (r : Fin 4) (v : Word), ¬ namesReg (readsRegs i) r →
    ∃ t u, exec i s = .next t ∧ exec i (s.setReg r v) = .next u ∧
      u.pc = t.pc ∧ u.sp = t.sp ∧ u.flags = t.flags ∧ u.run = t.run ∧ u.mem = t.mem ∧ u.out = t.out ∧
      u.cfg = t.cfg ∧ ∀ q, q ≠ r → u.reg q = t.reg q

/-- R29 (with R181 for INT, log 12): sp frame of all 25 instructions. A handler that completes moves sp by -4
for PUSH and CALL, -16 for PUSH_ALL, +4 for POP, RET and INT, +16 for POP_ALL, and by nothing else; one that
stops leaves it. -/
def Obligations.StackPointerMovesOnlyWithTheStack : Prop :=
  ∀ (i : Instr) (s t : State), s.run = .running → exec i s = .next t →
    (t.run ≠ .running → t.sp = s.sp) ∧
      (t.run = .running → t.sp =
        match i.mnemonic with
        | .push | .call => s.sp - 4#32
        | .pushAll => s.sp - 16#32
        | .pop | .ret | .int => s.sp + 4#32
        | .popAll => s.sp + 16#32
        | _ => s.sp)

/-- R25, with R126, R180 and R225 (decisions D5, D9, D10, D24): a completing handler adds the instruction's
static length, or sets pc to the target of a control transfer; one that stops leaves pc, a HALT inside memory
aside, which adds HALT_PC_ADVANCE. -/
def Obligations.PcAdvancesByLengthOrGoesToTheTarget : Prop :=
  ∀ (i : Instr) (s t : State), s.run = .running → exec i s = .next t →
    (t.run = .running →
        t.pc = (transferTarget i s).getD (s.pc + BitVec.ofNat 32 (lengthOf i.mnemonic))) ∧
      (t.run ≠ .running → t.pc =
        if i = .halt ∧ s.pc.toInt < s.cfg.ms.toInt then s.pc + BitVec.ofNat 32 s.cfg.haltPcAdvance.val
        else s.pc)

/-- R27, R28, R37: MS, SL and the two parameters are fixed for the run. No step changes the configuration. -/
def Obligations.StepNeverChangesTheConfiguration : Prop :=
  ∀ s t : State, step s = .next t → t.cfg = s.cfg

/-- R57, R107 (decision D12), R53: memory frame of all 25 instructions. STORE, RSTORE, PUSH, CALL and PUSH_ALL
change no byte outside the words they store to, and every other instruction changes no byte. -/
def Obligations.OnlyTheStoredBytesChange : Prop :=
  ∀ (s t : State) (b : Nat),
    (∀ r ea, exec (.store r ea) s = .next t → outsideWord ea.toNat b → t.mem.read b = s.mem.read b) ∧
      (∀ d a q, exec (.rstore d a) s = .next t → regOf a = some q → outsideWord (s.reg q).toNat b →
        t.mem.read b = s.mem.read b) ∧
      (∀ d a, exec (.rstore d a) s = .next t → regOf a = none → t.mem.read b = s.mem.read b) ∧
      (∀ r, exec (.push r) s = .next t → outsideWord s.pushAddr.toNat b → t.mem.read b = s.mem.read b) ∧
      (∀ target, exec (.call target) s = .next t → outsideWord s.pushAddr.toNat b →
        t.mem.read b = s.mem.read b) ∧
      (exec .pushAll s = .next t →
        outsideWord (s.sp - 4#32).toNat b → outsideWord (s.sp - 8#32).toNat b →
        outsideWord (s.sp - 12#32).toNat b → outsideWord (s.sp - 16#32).toNat b →
        t.mem.read b = s.mem.read b) ∧
      ∀ i : Instr, i.mnemonic ∉ [.store, .rstore, .push, .call, .pushAll] → exec i s = .next t →
        t.mem.read b = s.mem.read b

/-- R183 (decision D16): output frame of all 25 instructions. INT appends exactly one event when it completes;
everything else, a stopping INT included, appends nothing. -/
def Obligations.OnlyACompletingIntEmits : Prop :=
  ∀ (i : Instr) (s t : State), s.run = .running → exec i s = .next t →
    (i.mnemonic = .int → t.run = .running → ∃ e, t.out = s.out ++ [e]) ∧
      (i.mnemonic ≠ .int ∨ t.run ≠ .running → t.out = s.out)

/-! ### Arithmetic -/

/-- R120: ADD. "x[d] <- wrap32(x[d] + x[s])": 32-bit addition; src may be dst. -/
def Obligations.AddStoresTheWrappedSum : Prop :=
  ∀ (ops : OpcodeMap) (src dst : Byte) (s : State),
    encode ops (.add src dst) = [ops.opcodeOf .add, src, dst] ∧
      stopsBeforeRunning (.add src dst) 3 s ∧
      ∀ a d : Fin 4, s.pc.toInt + 3 ≤ s.cfg.ms.toInt → src.toNat = a.val → dst.toNat = d.val →
        exec (.add src dst) s = .next { s.setReg d (s.reg d + s.reg a) with pc := s.pc + 3#32 }

/-- R121 (decision D6): NEG. The wrapped negation; NEG of -2^31 is -2^31. -/
def Obligations.NegStoresTheWrappedNegation : Prop :=
  ∀ (ops : OpcodeMap) (r : Byte) (s : State),
    encode ops (.neg r) = [ops.opcodeOf .neg, r] ∧
      stopsBeforeRunning (.neg r) 2 s ∧
      ∀ d : Fin 4, s.pc.toInt + 2 ≤ s.cfg.ms.toInt → r.toNat = d.val →
        exec (.neg r) s = .next { s.setReg d (0#32 - s.reg d) with pc := s.pc + 2#32 } ∧
          (s.reg d = 0x80000000#32 → 0#32 - s.reg d = 0x80000000#32)

/-- R122: MUL. "The result is the low 32 bits of the full product, read as signed." -/
def Obligations.MulStoresTheLowHalfOfTheProduct : Prop :=
  ∀ (ops : OpcodeMap) (src dst : Byte) (s : State),
    encode ops (.mul src dst) = [ops.opcodeOf .mul, src, dst] ∧
      stopsBeforeRunning (.mul src dst) 3 s ∧
      ∀ a d : Fin 4, s.pc.toInt + 3 ≤ s.cfg.ms.toInt → src.toNat = a.val → dst.toNat = d.val →
        exec (.mul src dst) s = .next { s.setReg d (s.reg d * s.reg a) with pc := s.pc + 3#32 }

/-- R123, R126 (decisions D5, D7): DIV. The divisor is x[src]; the quotient is rounded toward zero and wrapped
(-2^31 / -1 gives -2^31); a divisor of 0 stops Undefined and changes nothing else. -/
def Obligations.DivStoresTheTruncatedQuotient : Prop :=
  ∀ (ops : OpcodeMap) (src dst : Byte) (s : State),
    encode ops (.div src dst) = [ops.opcodeOf .div, src, dst] ∧
      stopsBeforeRunning (.div src dst) 3 s ∧
      ∀ a d : Fin 4, s.pc.toInt + 3 ≤ s.cfg.ms.toInt → src.toNat = a.val → dst.toNat = d.val →
        (s.reg a ≠ 0#32 → exec (.div src dst) s =
          .next { s.setReg d ((s.reg d).sdiv (s.reg a)) with pc := s.pc + 3#32 }) ∧
          (s.reg a = 0#32 → exec (.div src dst) s = .next { s with run := .undefined .divideByZero })

/-- R124, R126 (decisions D5, D7, D8, general knowledge G1): MOD. "dst = src % dst": the divisor is x[dst]; the
remainder has the sign of the dividend x[src]; a divisor of 0 stops Undefined and changes nothing else. -/
def Obligations.ModStoresTheRemainderOfSourceByDestination : Prop :=
  ∀ (ops : OpcodeMap) (src dst : Byte) (s : State),
    encode ops (.mod src dst) = [ops.opcodeOf .mod, src, dst] ∧
      stopsBeforeRunning (.mod src dst) 3 s ∧
      ∀ a d : Fin 4, s.pc.toInt + 3 ≤ s.cfg.ms.toInt → src.toNat = a.val → dst.toNat = d.val →
        (s.reg d ≠ 0#32 → exec (.mod src dst) s =
          .next { s.setReg d ((s.reg a).srem (s.reg d)) with pc := s.pc + 3#32 }) ∧
          (s.reg d = 0#32 → exec (.mod src dst) s = .next { s with run := .undefined .divideByZero })

/-! ### Comparison and control transfer -/

/-- R140: CMP. "sets exactly one of BELOW/EQUAL/ABOVE by signed comparison of reg_a vs reg_b". A CMP that stops
leaves the old comparison flags. -/
def Obligations.CmpSetsExactlyOneFlagBySignedCompare : Prop :=
  ∀ (ops : OpcodeMap) (ra rb : Byte) (s : State),
    encode ops (.cmp ra rb) = [ops.opcodeOf .cmp, ra, rb] ∧
      stopsBeforeRunning (.cmp ra rb) 3 s ∧
      (∀ t, s.run = .running → exec (.cmp ra rb) s = .next t → t.run ≠ .running →
        t.flags.below = s.flags.below ∧ t.flags.equal = s.flags.equal ∧
          t.flags.above = s.flags.above) ∧
      ∀ a b : Fin 4, s.pc.toInt + 3 ≤ s.cfg.ms.toInt → ra.toNat = a.val → rb.toNat = b.val →
        exec (.cmp ra rb) s = .next { s with
          flags := { s.flags with
            below := (s.reg a).slt (s.reg b)
            equal := s.reg a == s.reg b
            above := (s.reg b).slt (s.reg a) }
          pc := s.pc + 3#32 } ∧
          ((s.reg a).slt (s.reg b)).toNat + (s.reg a == s.reg b).toNat +
            ((s.reg b).slt (s.reg a)).toNat = 1

/-- R141, R142, R143 (decision D24 pairs JA with ABOVE and JB with BELOW): JA, JE and JB carry their target at
bytes 1 to 4; they jump when their flag is set and else fall through; no flag changes; an out-of-range target faults at the next fetch. -/
def Obligations.ConditionalJumpsFollowTheirFlag : Prop :=
  ∀ (ops : OpcodeMap) (target : Word) (s : State),
    (encode ops (.ja target) = ops.opcodeOf .ja :: littleEndian target ∧
        encode ops (.je target) = ops.opcodeOf .je :: littleEndian target ∧
        encode ops (.jb target) = ops.opcodeOf .jb :: littleEndian target) ∧
      (∀ i ∈ [Instr.ja target, .je target, .jb target], faultsWhenCutOff i 5 s) ∧
      (s.pc.toInt + 5 ≤ s.cfg.ms.toInt →
        exec (.ja target) s =
            .next { s with pc := if s.flags.above then target else s.pc + 5#32 } ∧
          exec (.je target) s =
            .next { s with pc := if s.flags.equal then target else s.pc + 5#32 } ∧
          exec (.jb target) s =
            .next { s with pc := if s.flags.below then target else s.pc + 5#32 } ∧
          faultsAtNextFetchIfOutside { s with pc := target })

/-- R144: JMP. "pc <- t", for any target; one out of range faults at the next fetch. -/
def Obligations.JmpGoesToItsTarget : Prop :=
  ∀ (ops : OpcodeMap) (target : Word) (s : State),
    encode ops (.jmp target) = ops.opcodeOf .jmp :: littleEndian target ∧
      faultsWhenCutOff (.jmp target) 5 s ∧
      (s.pc.toInt + 5 ≤ s.cfg.ms.toInt →
        exec (.jmp target) s = .next { s with pc := target } ∧
          faultsAtNextFetchIfOutside { s with pc := target })

/-- R145: CALL. "push return address (pc + 5), jump to abs_addr; fails with STACK_OVERFLOW if fewer than 4 free
bytes remain", and then sp and memory are unchanged. -/
def Obligations.CallPushesTheReturnAddressAndJumps : Prop :=
  ∀ (ops : OpcodeMap) (target : Word) (s : State),
    encode ops (.call target) = ops.opcodeOf .call :: littleEndian target ∧
      faultsWhenCutOff (.call target) 5 s ∧
      (s.pc.toInt + 5 ≤ s.cfg.ms.toInt → s.sp.toInt - s.cfg.sl.toInt < 4 →
        ∃ t, exec (.call target) s = .next t ∧ t.run = .halted ∧ t.flags.stackOverflow = true ∧
          t.sp = s.sp ∧ t.mem = s.mem) ∧
      (s.pc.toInt + 5 ≤ s.cfg.ms.toInt → 4 ≤ s.sp.toInt - s.cfg.sl.toInt →
        exec (.call target) s = .next { s with
          sp := s.sp - 4#32
          mem := s.mem.writeWord (s.sp - 4#32).toNat (s.pc + 5#32)
          pc := target } ∧
          faultsAtNextFetchIfOutside { s with
            sp := s.sp - 4#32
            mem := s.mem.writeWord (s.sp - 4#32).toNat (s.pc + 5#32)
            pc := target })

/-- R146: RET. "pop return address into pc; fails with STACK_UNDERFLOW if stack empty". -/
def Obligations.RetPopsPc : Prop :=
  ∀ (ops : OpcodeMap) (s : State),
    encode ops .ret = [ops.opcodeOf .ret] ∧ faultsWhenCutOff .ret 1 s ∧
      (s.pc.toInt < s.cfg.ms.toInt → s.cfg.ms.toInt - s.sp.toInt < 4 →
        raises (exec .ret s) .stackUnderflow) ∧
      (s.pc.toInt < s.cfg.ms.toInt → 4 ≤ s.cfg.ms.toInt - s.sp.toInt →
        exec .ret s = .next { s with pc := s.mem.readWord s.sp.toNat, sp := s.sp + 4#32 } ∧
          faultsAtNextFetchIfOutside { s with pc := s.mem.readWord s.sp.toNat, sp := s.sp + 4#32 })

/-- R146: "CALL followed later by RET restores sp", and pc is the address after the CALL (§8, W7), when the
stack meets the bounds of R30 and the callee is the RET at the target. -/
def Obligations.RetUndoesCall : Prop :=
  ∀ (target : Word) (s : State), s.mem.wf → 0 ≤ s.cfg.sl.toInt → s.sp.toInt ≤ s.cfg.ms.toInt →
    s.pc.toInt + 5 ≤ s.cfg.ms.toInt → 4 ≤ s.sp.toInt - s.cfg.sl.toInt →
    target.toInt < s.cfg.ms.toInt →
    ∃ t u, exec (.call target) s = .next t ∧ t.pc = target ∧ exec .ret t = .next u ∧
      u.pc = s.pc + 5#32 ∧ u.sp = s.sp ∧ u.x = s.x ∧ u.flags = s.flags ∧ u.run = s.run

/-! ### Data movement -/

/-- R161, R160 (decision D2 for the address check): LOAD. -/
def Obligations.LoadReadsTheWordAtItsAddress : Prop :=
  ∀ (ops : OpcodeMap) (r : Byte) (ea : Word) (s : State),
    encode ops (.load r ea) = ops.opcodeOf .load :: r :: littleEndian ea ∧
      stopsBeforeRunning (.load r ea) 6 s ∧
      ∀ d : Fin 4, s.pc.toInt + 6 ≤ s.cfg.ms.toInt → r.toNat = d.val →
        (0 ≤ ea.toInt ∧ ea.toInt + 4 ≤ s.cfg.ms.toInt → exec (.load r ea) s =
          .next { s.setReg d (s.mem.readWord ea.toNat) with pc := s.pc + 6#32 }) ∧
          (ea.toInt < 0 ∨ s.cfg.ms.toInt < ea.toInt + 4 → raises (exec (.load r ea) s) .badAccess)

/-- R162, R160 (decision D2 for the address check): STORE. A faulting STORE writes no byte. -/
def Obligations.StoreWritesTheWordAtItsAddress : Prop :=
  ∀ (ops : OpcodeMap) (r : Byte) (ea : Word) (s : State),
    encode ops (.store r ea) = ops.opcodeOf .store :: r :: littleEndian ea ∧
      stopsBeforeRunning (.store r ea) 6 s ∧
      ∀ d : Fin 4, s.pc.toInt + 6 ≤ s.cfg.ms.toInt → r.toNat = d.val →
        (0 ≤ ea.toInt ∧ ea.toInt + 4 ≤ s.cfg.ms.toInt → exec (.store r ea) s =
          .next { s with mem := s.mem.writeWord ea.toNat (s.reg d), pc := s.pc + 6#32 }) ∧
          (ea.toInt < 0 ∨ s.cfg.ms.toInt < ea.toInt + 4 →
            ∃ t, exec (.store r ea) s = .next t ∧ t.run = .halted ∧ t.flags.badAccess = true ∧
              t.mem = s.mem)

/-- R163: CONST. "The immediate is the full signed 32-bit word, with no extension and no range limit." -/
def Obligations.ConstLoadsItsImmediate : Prop :=
  ∀ (ops : OpcodeMap) (r : Byte) (imm : Word) (s : State),
    encode ops (.const r imm) = ops.opcodeOf .const :: r :: littleEndian imm ∧
      stopsBeforeRunning (.const r imm) 6 s ∧
      ∀ d : Fin 4, s.pc.toInt + 6 ≤ s.cfg.ms.toInt → r.toNat = d.val →
        exec (.const r imm) s = .next { s.setReg d imm with pc := s.pc + 6#32 }

/-- R164, R160 (decisions D2, D3): RLOAD. The address register is the FIRST operand byte, and an invalid index
halts like everywhere else. -/
def Obligations.RloadReadsTheWordItsFirstRegisterAddresses : Prop :=
  ∀ (ops : OpcodeMap) (ra rd : Byte) (s : State),
    encode ops (.rload ra rd) = [ops.opcodeOf .rload, ra, rd] ∧
      stopsBeforeRunning (.rload ra rd) 3 s ∧
      ∀ a d : Fin 4, s.pc.toInt + 3 ≤ s.cfg.ms.toInt → ra.toNat = a.val → rd.toNat = d.val →
        (0 ≤ (s.reg a).toInt ∧ (s.reg a).toInt + 4 ≤ s.cfg.ms.toInt → exec (.rload ra rd) s =
          .next { s.setReg d (s.mem.readWord (s.reg a).toNat) with pc := s.pc + 3#32 }) ∧
          ((s.reg a).toInt < 0 ∨ s.cfg.ms.toInt < (s.reg a).toInt + 4 →
            raises (exec (.rload ra rd) s) .badAccess)

/-- R165, R160 (decision D2 for the address check; conflict C6): RSTORE. The address register is the SECOND
operand byte, and pc advances by 3. -/
def Obligations.RstoreWritesTheWordItsSecondRegisterAddresses : Prop :=
  ∀ (ops : OpcodeMap) (rd ra : Byte) (s : State),
    encode ops (.rstore rd ra) = [ops.opcodeOf .rstore, rd, ra] ∧
      stopsBeforeRunning (.rstore rd ra) 3 s ∧
      ∀ d a : Fin 4, s.pc.toInt + 3 ≤ s.cfg.ms.toInt → rd.toNat = d.val → ra.toNat = a.val →
        (0 ≤ (s.reg a).toInt ∧ (s.reg a).toInt + 4 ≤ s.cfg.ms.toInt → exec (.rstore rd ra) s =
          .next { s with mem := s.mem.writeWord (s.reg a).toNat (s.reg d), pc := s.pc + 3#32 }) ∧
          ((s.reg a).toInt < 0 ∨ s.cfg.ms.toInt < (s.reg a).toInt + 4 →
            raises (exec (.rstore rd ra) s) .badAccess)

/-! ### System -/

/-- R180 (decision D10: HALT_PC_ADVANCE is OPEN, and the statement holds for both values): HALT. -/
def Obligations.HaltStopsWithNoFault : Prop :=
  ∀ (ops : OpcodeMap) (s : State),
    encode ops .halt = [ops.opcodeOf .halt] ∧ faultsWhenCutOff .halt 1 s ∧
      (s.pc.toInt < s.cfg.ms.toInt → exec .halt s =
        .next { s with
          run := .halted
          pc := if s.cfg.haltPcAdvance = 0 then s.pc else s.pc + 1#32 })

/-- R181, R182, R183 (decisions D13 to D16): INT. An unknown number raises BAD_INSTRUCTION whatever the stack
holds; an empty stack raises BAD_ACCESS; INT 1 pops a word and emits it; INT 2 pops an address and emits the
bytes there up to the first 0, and raises BAD_ACCESS when there is none inside [0, MS). -/
def Obligations.IntPopsAWordAndEmitsItsEvent : Prop :=
  ∀ (ops : OpcodeMap) (n : Byte) (s : State),
    encode ops (.int n) = [ops.opcodeOf .int, n] ∧ faultsWhenCutOff (.int n) 2 s ∧
      (s.pc.toInt + 2 ≤ s.cfg.ms.toInt →
        (n ≠ 1#8 → n ≠ 2#8 → raises (exec (.int n) s) .badInstruction) ∧
          (n = 1#8 ∨ n = 2#8 → s.cfg.ms.toInt ≤ s.sp.toInt → raises (exec (.int n) s) .badAccess) ∧
          (s.sp.toInt < s.cfg.ms.toInt →
            exec (.int 1#8) s = .next { s with
              sp := s.sp + 4#32
              out := s.out ++ [.int (s.mem.readWord s.sp.toNat)]
              pc := s.pc + 2#32 } ∧
              (∀ str : List Byte, 0 ≤ (s.mem.readWord s.sp.toNat).toInt →
                (s.mem.readWord s.sp.toNat).toInt + str.length < s.cfg.ms.toInt →
                (∀ b ∈ str, b ≠ 0#8) →
                (∀ k, k < str.length →
                  str[k]? = some (s.mem.read ((s.mem.readWord s.sp.toNat).toNat + k))) →
                s.mem.read ((s.mem.readWord s.sp.toNat).toNat + str.length) = 0#8 →
                exec (.int 2#8) s = .next { s with
                  sp := s.sp + 4#32
                  out := s.out ++ [.str str]
                  pc := s.pc + 2#32 }) ∧
              ((s.mem.readWord s.sp.toNat).toInt < 0 ∨
                (∀ b : Nat, (s.mem.readWord s.sp.toNat).toNat ≤ b → (b : Int) < s.cfg.ms.toInt →
                  s.mem.read b ≠ 0#8) → raises (exec (.int 2#8) s) .badAccess)))

/-- R184: NOP. "next()" and nothing else. -/
def Obligations.NopOnlyAdvancesPc : Prop :=
  ∀ (ops : OpcodeMap) (s : State),
    encode ops .nop = [ops.opcodeOf .nop] ∧ faultsWhenCutOff .nop 1 s ∧
      (s.pc.toInt < s.cfg.ms.toInt → exec .nop s = .next { s with pc := s.pc + 1#32 })

/-! ### Stack -/

/-- R200: PUSH. Writes the register below the old top. That a full stack raises STACK_OVERFLOW and halts, writing
nothing, where the source also says "no-op failure", is the spec's choice in conflict C3 of 90_conflicts.md
(log 8). -/
def Obligations.PushStoresTheRegisterBelowTheTop : Prop :=
  ∀ (ops : OpcodeMap) (r : Byte) (s : State),
    encode ops (.push r) = [ops.opcodeOf .push, r] ∧ stopsBeforeRunning (.push r) 2 s ∧
      ∀ d : Fin 4, s.pc.toInt + 2 ≤ s.cfg.ms.toInt → r.toNat = d.val →
        (s.sp.toInt - s.cfg.sl.toInt < 4 →
          ∃ t, exec (.push r) s = .next t ∧ t.run = .halted ∧ t.flags.stackOverflow = true ∧
            t.sp = s.sp ∧ t.mem = s.mem) ∧
          (4 ≤ s.sp.toInt - s.cfg.sl.toInt → exec (.push r) s = .next { s with
            sp := s.sp - 4#32
            mem := s.mem.writeWord (s.sp - 4#32).toNat (s.reg d)
            pc := s.pc + 2#32 })

/-- R201: PUSH_ALL. "order: reg0..reg3, each decrementing pointer"; fewer than 16 free bytes raise
STACK_OVERFLOW and nothing is pushed. -/
def Obligations.PushAllStoresRegistersInDescendingOrder : Prop :=
  ∀ (ops : OpcodeMap) (s : State),
    encode ops .pushAll = [ops.opcodeOf .pushAll] ∧ faultsWhenCutOff .pushAll 1 s ∧
      (s.pc.toInt < s.cfg.ms.toInt →
        (s.sp.toInt - s.cfg.sl.toInt < 16 →
          ∃ t, exec .pushAll s = .next t ∧ t.run = .halted ∧ t.flags.stackOverflow = true ∧
            t.sp = s.sp ∧ t.mem = s.mem) ∧
          (16 ≤ s.sp.toInt - s.cfg.sl.toInt → exec .pushAll s = .next { s with
            sp := s.sp - 16#32
            mem := (((s.mem.writeWord (s.sp - 4#32).toNat (s.reg 0)).writeWord (s.sp - 8#32).toNat
              (s.reg 1)).writeWord (s.sp - 12#32).toNat (s.reg 2)).writeWord (s.sp - 16#32).toNat (s.reg 3)
            pc := s.pc + 1#32 }))

/-- R202: POP. Reads the top word into the register; memory keeps the word. That an empty stack halts, and with
STACK_UNDERFLOW and not BAD_ACCESS, is the spec's choice in conflicts C3 and C4 of 90_conflicts.md (log 8). -/
def Obligations.PopLoadsTheTopWord : Prop :=
  ∀ (ops : OpcodeMap) (r : Byte) (s : State),
    encode ops (.pop r) = [ops.opcodeOf .pop, r] ∧ stopsBeforeRunning (.pop r) 2 s ∧
      ∀ d : Fin 4, s.pc.toInt + 2 ≤ s.cfg.ms.toInt → r.toNat = d.val →
        (s.cfg.ms.toInt - s.sp.toInt < 4 → raises (exec (.pop r) s) .stackUnderflow) ∧
          (4 ≤ s.cfg.ms.toInt - s.sp.toInt → exec (.pop r) s =
            .next { s.setReg d (s.mem.readWord s.sp.toNat) with sp := s.sp + 4#32, pc := s.pc + 2#32 })

/-- R203, R64 (decision D25 for the flag of a short stack): POP_ALL. x[3] is on top and x[0] deepest; fewer than
16 used bytes raise STACK_UNDERFLOW and nothing is popped. -/
def Obligations.PopAllLoadsRegistersInAscendingOrder : Prop :=
  ∀ (ops : OpcodeMap) (s : State),
    encode ops .popAll = [ops.opcodeOf .popAll] ∧ faultsWhenCutOff .popAll 1 s ∧
      (s.pc.toInt < s.cfg.ms.toInt →
        (s.cfg.ms.toInt - s.sp.toInt < 16 → exec .popAll s = .next (s.raise .stackUnderflow)) ∧
          (16 ≤ s.cfg.ms.toInt - s.sp.toInt → exec .popAll s = .next { s with
            x := #v[s.mem.readWord (s.sp + 12#32).toNat, s.mem.readWord (s.sp + 8#32).toNat,
              s.mem.readWord (s.sp + 4#32).toNat, s.mem.readWord s.sp.toNat]
            sp := s.sp + 16#32
            pc := s.pc + 1#32 }))

/-- R204: LSP. "x[r] <- sp". -/
def Obligations.LspReadsTheStackPointer : Prop :=
  ∀ (ops : OpcodeMap) (r : Byte) (s : State),
    encode ops (.lsp r) = [ops.opcodeOf .lsp, r] ∧ stopsBeforeRunning (.lsp r) 2 s ∧
      ∀ d : Fin 4, s.pc.toInt + 2 ≤ s.cfg.ms.toInt → r.toNat = d.val →
        exec (.lsp r) s = .next { s.setReg d s.sp with pc := s.pc + 2#32 }

/-- R64, R203: "multi-pop is its exact inverse". POP_ALL after PUSH_ALL restores all four registers and sp. -/
def Obligations.PopAllUndoesPushAll : Prop :=
  ∀ s : State, s.mem.wf → 0 ≤ s.cfg.sl.toInt → s.sp.toInt ≤ s.cfg.ms.toInt →
    16 ≤ s.sp.toInt - s.cfg.sl.toInt → s.pc.toInt + 2 ≤ s.cfg.ms.toInt →
    ∃ t u, exec .pushAll s = .next t ∧ exec .popAll t = .next u ∧ u.x = s.x ∧ u.sp = s.sp ∧
      u.pc = s.pc + 2#32

/-- R66 (derived): the LIFO law. n PUSHes followed by n POPs, with nothing in between: the POPs get the pushed
values in reverse order and sp ends where it began. Registers are written in the order of the POPs. -/
def Obligations.PushesThenPopsAreLifo : Prop :=
  ∀ (rs qs : List (Fin 4)) (s : State), rs.length = qs.length → s.mem.wf → 0 ≤ s.cfg.sl.toInt →
    s.sp.toInt ≤ s.cfg.ms.toInt → 4 * (rs.length : Int) ≤ s.sp.toInt - s.cfg.sl.toInt →
    s.pc.toInt + 4 * (rs.length : Int) ≤ s.cfg.ms.toInt →
    ∃ t, execList (rs.map (fun r => Instr.push (BitVec.ofNat 8 r.val)) ++
        qs.map (fun q => Instr.pop (BitVec.ofNat 8 q.val))) s = .next t ∧
      t.sp = s.sp ∧
      t.x = (qs.zip (rs.reverse.map s.reg)).foldl (fun x p => x.set p.1 p.2) s.x

/-- R205 (derived): "the bytes below SL are never written by the stack". -/
def Obligations.StackInstructionsNeverWriteBelowTheLimit : Prop :=
  ∀ (i : Instr) (s t : State) (b : Nat),
    i.mnemonic ∈ [.push, .pushAll, .pop, .popAll, .lsp, .call, .ret, .int] → 0 ≤ s.cfg.sl.toInt →
    (b : Int) < s.cfg.sl.toInt → exec i s = .next t → t.mem.read b = s.mem.read b

/-! ### Reset -/

/-- R250 (decision D27) and R254: MS and SL are the least multiples of 4 that are at least the requests, for
every legal request; 10 and 3 give 12, 4 and sp = 12, with 8 bytes free and none used. -/
def Obligations.InitialisationRoundsRequestsUpToFour : Prop :=
  (∀ (reqMem reqLimit : Nat) (ops : OpcodeMap) (adv : Fin 2), reqMem ≤ 2 ^ 31 - 4 →
      reqLimit ≤ 2 ^ 31 - 4 →
      let c := launchConfig reqMem reqLimit ops adv
      (c.ms.toInt % 4 = 0 ∧ (reqMem : Int) ≤ c.ms.toInt ∧
          ∀ n : Int, n % 4 = 0 → (reqMem : Int) ≤ n → c.ms.toInt ≤ n) ∧
        (c.sl.toInt % 4 = 0 ∧ (reqLimit : Int) ≤ c.sl.toInt ∧
          ∀ n : Int, n % 4 = 0 → (reqLimit : Int) ≤ n → c.sl.toInt ≤ n)) ∧
    ∀ (ops : OpcodeMap) (adv : Fin 2),
      let s := State.init (launchConfig 10 3 ops adv)
      s.cfg.ms = 12#32 ∧ s.cfg.sl = 4#32 ∧ s.sp = 12#32 ∧ s.available = 8 ∧ s.occupied = 0

/-- R251: the value of every piece of state after initialisation, for every configuration; and State.reset is
such a state (its two sizes are the model's choice, log 1). -/
def Obligations.InitialisationLeavesTheResetState : Prop :=
  (∀ (c : Config) (a : Nat) (r : Fin 4) (f : FaultFlag),
    let s := State.init c
    s.mem.read a = 0#8 ∧ s.reg r = 0#32 ∧ s.sp = c.ms ∧ s.pc = 0#32 ∧ s.flags.fault f = false ∧
      s.flags.below = false ∧ s.flags.equal = false ∧ s.flags.above = false ∧ s.run = .running ∧
      s.out = [] ∧ s.cfg = c) ∧
    ∃ c, State.reset = State.init c

/-- R252 (decision D19): loading stores the image at addresses 0 up and changes nothing else. -/
def Obligations.LoadingPlacesTheImageAtAddressZero : Prop :=
  ∀ (s : State) (image : List Byte) (a : Nat), s.mem.wf → (image.length : Int) ≤ s.cfg.ms.toInt →
    (s.load image).mem.read a = image.getD a (s.mem.read a) ∧
      s.load image = { s with mem := (s.load image).mem }

/-! ### The invariant of the core -/

/-- R30, R32, R35, R38, R50, R73, R223 (derived; decisions D1, D18): every legal launch meets the invariant, and
so does State.reset (log 1, 2, 3). -/
def Obligations.LegalLaunchesMeetTheInvariant : Prop :=
  (∀ (reqMem reqLimit : Nat) (ops : OpcodeMap) (adv : Fin 2) (image : List Byte),
      legalLaunch reqMem reqLimit ops image = true → (launch reqMem reqLimit ops adv image).inv) ∧
    State.reset.inv

/-- R30, R32, R35, R38, R50, R223 (derived): every step of every instruction keeps the invariant: memory
canonical and inside [0, MS), sp a multiple of 4 between min(SL, MS) and MS, at most one comparison flag, at
most one fault flag and none while running, string events without a zero byte, and a legal configuration. -/
def Obligations.StepKeepsTheInvariant : Prop :=
  ∀ s t : State, s.inv → step s = .next t → t.inv
end

