-- ==== Sys2Proof/Laws/State.lean ====
section
/-!
SUPPORT. One lemma per field per update of the state, true by rfl, so that no later proof unfolds a record
update; and the register file's read-after-write laws.
-/

namespace Sys2Proof.Machine

namespace State

@[simp] theorem setReg_cfg (s : State) (r : Fin 4) (v : Word) : (s.setReg r v).cfg = s.cfg := rfl
@[simp] theorem setReg_pc (s : State) (r : Fin 4) (v : Word) : (s.setReg r v).pc = s.pc := rfl
@[simp] theorem setReg_sp (s : State) (r : Fin 4) (v : Word) : (s.setReg r v).sp = s.sp := rfl
@[simp] theorem setReg_flags (s : State) (r : Fin 4) (v : Word) : (s.setReg r v).flags = s.flags := rfl
@[simp] theorem setReg_run (s : State) (r : Fin 4) (v : Word) : (s.setReg r v).run = s.run := rfl
@[simp] theorem setReg_mem (s : State) (r : Fin 4) (v : Word) : (s.setReg r v).mem = s.mem := rfl
@[simp] theorem setReg_out (s : State) (r : Fin 4) (v : Word) : (s.setReg r v).out = s.out := rfl

@[simp] theorem advance_cfg (s : State) (n : Nat) : (s.advance n).cfg = s.cfg := rfl
@[simp] theorem advance_x (s : State) (n : Nat) : (s.advance n).x = s.x := rfl
@[simp] theorem advance_pc (s : State) (n : Nat) : (s.advance n).pc = s.pc + BitVec.ofNat 32 n := rfl
@[simp] theorem advance_sp (s : State) (n : Nat) : (s.advance n).sp = s.sp := rfl
@[simp] theorem advance_flags (s : State) (n : Nat) : (s.advance n).flags = s.flags := rfl
@[simp] theorem advance_run (s : State) (n : Nat) : (s.advance n).run = s.run := rfl
@[simp] theorem advance_mem (s : State) (n : Nat) : (s.advance n).mem = s.mem := rfl
@[simp] theorem advance_out (s : State) (n : Nat) : (s.advance n).out = s.out := rfl

@[simp] theorem jump_cfg (s : State) (t : Word) : (s.jump t).cfg = s.cfg := rfl
@[simp] theorem jump_x (s : State) (t : Word) : (s.jump t).x = s.x := rfl
@[simp] theorem jump_pc (s : State) (t : Word) : (s.jump t).pc = t := rfl
@[simp] theorem jump_sp (s : State) (t : Word) : (s.jump t).sp = s.sp := rfl
@[simp] theorem jump_flags (s : State) (t : Word) : (s.jump t).flags = s.flags := rfl
@[simp] theorem jump_run (s : State) (t : Word) : (s.jump t).run = s.run := rfl
@[simp] theorem jump_mem (s : State) (t : Word) : (s.jump t).mem = s.mem := rfl
@[simp] theorem jump_out (s : State) (t : Word) : (s.jump t).out = s.out := rfl

@[simp] theorem raise_cfg (s : State) (f : FaultFlag) : (s.raise f).cfg = s.cfg := rfl
@[simp] theorem raise_x (s : State) (f : FaultFlag) : (s.raise f).x = s.x := rfl
@[simp] theorem raise_pc (s : State) (f : FaultFlag) : (s.raise f).pc = s.pc := rfl
@[simp] theorem raise_sp (s : State) (f : FaultFlag) : (s.raise f).sp = s.sp := rfl
@[simp] theorem raise_flags (s : State) (f : FaultFlag) : (s.raise f).flags = s.flags.setFault f := rfl
@[simp] theorem raise_run (s : State) (f : FaultFlag) : (s.raise f).run = .halted := rfl
@[simp] theorem raise_mem (s : State) (f : FaultFlag) : (s.raise f).mem = s.mem := rfl
@[simp] theorem raise_out (s : State) (f : FaultFlag) : (s.raise f).out = s.out := rfl

@[simp] theorem raiseUndefined_cfg (s : State) (r : UndefinedReason) : (s.raiseUndefined r).cfg = s.cfg := rfl
@[simp] theorem raiseUndefined_x (s : State) (r : UndefinedReason) : (s.raiseUndefined r).x = s.x := rfl
@[simp] theorem raiseUndefined_pc (s : State) (r : UndefinedReason) : (s.raiseUndefined r).pc = s.pc := rfl
@[simp] theorem raiseUndefined_sp (s : State) (r : UndefinedReason) : (s.raiseUndefined r).sp = s.sp := rfl
@[simp] theorem raiseUndefined_flags (s : State) (r : UndefinedReason) :
    (s.raiseUndefined r).flags = s.flags := rfl
@[simp] theorem raiseUndefined_run (s : State) (r : UndefinedReason) :
    (s.raiseUndefined r).run = .undefined r := rfl
@[simp] theorem raiseUndefined_mem (s : State) (r : UndefinedReason) : (s.raiseUndefined r).mem = s.mem := rfl
@[simp] theorem raiseUndefined_out (s : State) (r : UndefinedReason) : (s.raiseUndefined r).out = s.out := rfl

@[simp] theorem halt_cfg (s : State) : s.halt.cfg = s.cfg := rfl
@[simp] theorem halt_x (s : State) : s.halt.x = s.x := rfl
@[simp] theorem halt_pc (s : State) : s.halt.pc = s.pc := rfl
@[simp] theorem halt_sp (s : State) : s.halt.sp = s.sp := rfl
@[simp] theorem halt_flags (s : State) : s.halt.flags = s.flags := rfl
@[simp] theorem halt_run (s : State) : s.halt.run = .halted := rfl
@[simp] theorem halt_mem (s : State) : s.halt.mem = s.mem := rfl
@[simp] theorem halt_out (s : State) : s.halt.out = s.out := rfl

@[simp] theorem emit_cfg (s : State) (e : Event) : (s.emit e).cfg = s.cfg := rfl
@[simp] theorem emit_x (s : State) (e : Event) : (s.emit e).x = s.x := rfl
@[simp] theorem emit_pc (s : State) (e : Event) : (s.emit e).pc = s.pc := rfl
@[simp] theorem emit_sp (s : State) (e : Event) : (s.emit e).sp = s.sp := rfl
@[simp] theorem emit_flags (s : State) (e : Event) : (s.emit e).flags = s.flags := rfl
@[simp] theorem emit_run (s : State) (e : Event) : (s.emit e).run = s.run := rfl
@[simp] theorem emit_mem (s : State) (e : Event) : (s.emit e).mem = s.mem := rfl
@[simp] theorem emit_out (s : State) (e : Event) : (s.emit e).out = s.out ++ [e] := rfl

@[simp] theorem push_cfg (s : State) (v : Word) : (s.push v).cfg = s.cfg := rfl
@[simp] theorem push_x (s : State) (v : Word) : (s.push v).x = s.x := rfl
@[simp] theorem push_pc (s : State) (v : Word) : (s.push v).pc = s.pc := rfl
@[simp] theorem push_sp (s : State) (v : Word) : (s.push v).sp = s.pushAddr := rfl
@[simp] theorem push_flags (s : State) (v : Word) : (s.push v).flags = s.flags := rfl
@[simp] theorem push_run (s : State) (v : Word) : (s.push v).run = s.run := rfl
@[simp] theorem push_mem (s : State) (v : Word) : (s.push v).mem = s.mem.writeWord s.pushAddr.toNat v := rfl
@[simp] theorem push_out (s : State) (v : Word) : (s.push v).out = s.out := rfl

/-- The register file reads back what was written, and nothing else changes. -/
@[simp] theorem reg_setReg (s : State) (r q : Fin 4) (v : Word) :
    (s.setReg r v).reg q = if q = r then v else s.reg q := by
  unfold reg setReg
  simp only [Vector.get_eq_getElem]
  by_cases h : q = r
  · subst h; simp
  · have h' : (r : Nat) ≠ q := fun e => h (Fin.ext e.symm)
    simp [Vector.getElem_set_ne, h, h']

@[simp] theorem reg_advance (s : State) (n : Nat) (q : Fin 4) : (s.advance n).reg q = s.reg q := rfl
@[simp] theorem reg_jump (s : State) (t : Word) (q : Fin 4) : (s.jump t).reg q = s.reg q := rfl
@[simp] theorem reg_raise (s : State) (f : FaultFlag) (q : Fin 4) : (s.raise f).reg q = s.reg q := rfl
@[simp] theorem reg_raiseUndefined (s : State) (r : UndefinedReason) (q : Fin 4) :
    (s.raiseUndefined r).reg q = s.reg q := rfl
@[simp] theorem reg_halt (s : State) (q : Fin 4) : s.halt.reg q = s.reg q := rfl
@[simp] theorem reg_emit (s : State) (e : Event) (q : Fin 4) : (s.emit e).reg q = s.reg q := rfl
@[simp] theorem reg_push (s : State) (v : Word) (q : Fin 4) : (s.push v).reg q = s.reg q := rfl

/-- A pop changes sp, or on an empty stack the BAD_ACCESS flag, and nothing else. -/
theorem pop_of_occupied {s : State} (h : ¬ s.isEmpty) :
    s.pop = (s.mem.readWord s.sp.toNat, { s with sp := s.sp + 4#32 }) := by
  simp only [pop, if_neg h]

end State

/-- Setting a fault flag sets it and no other fault flag. -/
@[simp] theorem Flags.fault_setFault (f : Flags) (a b : FaultFlag) :
    (f.setFault a).fault b = (decide (b = a) || f.fault b) := by
  cases a <;> cases b <;> rfl

@[simp] theorem Flags.setFault_below (f : Flags) (a : FaultFlag) : (f.setFault a).below = f.below := by
  cases a <;> rfl
@[simp] theorem Flags.setFault_equal (f : Flags) (a : FaultFlag) : (f.setFault a).equal = f.equal := by
  cases a <;> rfl
@[simp] theorem Flags.setFault_above (f : Flags) (a : FaultFlag) : (f.setFault a).above = f.above := by
  cases a <;> rfl
@[simp] theorem Flags.fault_compare (f : Flags) (a b : Word) (g : FaultFlag) :
    (f.compare a b).fault g = f.fault g := by
  cases g <;> rfl

end Sys2Proof.Machine
end

