-- ==== Sys2Proof/Laws/Memory.lean ====
section
/-!
SUPPORT. The laws of memory: reading one byte after a write, and the canonical form, which every memory
operation keeps.
-/

namespace Sys2Proof.Machine.Memory

/-- Reading past a memory whose listed addresses are all above gives 0. -/
theorem read_of_lt {m : Memory} {a : Nat} (h : ∀ c ∈ m, a < c.1) : m.read a = 0#8 := by
  induction m with
  | nil => rfl
  | cons c rest ih =>
    obtain ⟨k, b⟩ := c
    have hk : a < k := h (k, b) (by simp)
    rw [read, if_neg (Nat.ne_of_gt hk)]
    exact ih fun c hc => h c (by simp [hc])

/-- A write leaves every other byte alone. -/
theorem read_write_ne (m : Memory) {a b : Nat} (v : Byte) (h : b ≠ a) : (m.write a v).read b = m.read b := by
  induction m with
  | nil => by_cases hv : v = 0#8 <;> simp [write, read, hv, Ne.symm h]
  | cons c rest ih =>
    obtain ⟨k, w⟩ := c
    unfold write
    by_cases hlt : k < a
    · simp only [if_pos hlt, read, ih]
    · by_cases hk : k = a <;> by_cases hv : v = 0#8 <;>
        simp [hlt, hk, hv, read, Ne.symm h]

/-- A byte reads back what was written to it. -/
theorem read_write_self {m : Memory} (hm : m.wf) (a : Nat) (v : Byte) : (m.write a v).read a = v := by
  obtain ⟨hs, -⟩ := hm
  induction m with
  | nil => by_cases hv : v = 0#8 <;> simp [write, read, hv]
  | cons c rest ih =>
    obtain ⟨k, w⟩ := c
    obtain ⟨hhead, htail⟩ := List.pairwise_cons.mp hs
    unfold write
    by_cases hlt : k < a
    · simp only [if_pos hlt, read, if_neg (Nat.ne_of_lt hlt), ih htail]
    · by_cases hv : v = 0#8
      · subst hv
        by_cases hk : k = a
        · subst hk; simpa using read_of_lt hhead
        · have hak : a < k := by omega
          simp only [if_neg hlt, if_neg hk, if_true]
          refine read_of_lt fun c hc => ?_
          rcases List.mem_cons.mp hc with rfl | hc
          · exact hak
          · exact hak.trans (hhead c hc)
      · simp [hlt, hv, read]

theorem read_write {m : Memory} (hm : m.wf) (a b : Nat) (v : Byte) :
    (m.write a v).read b = if b = a then v else m.read b := by
  by_cases h : b = a
  · subst h; simp [read_write_self hm]
  · simp [h, read_write_ne m v h]

/-- Every cell after a write is an old cell or the written one. -/
theorem mem_write {m : Memory} {a : Nat} {v : Byte} {c : Host.Cell} (h : c ∈ m.write a v) :
    c ∈ m ∨ c = (a, v) ∧ v ≠ 0#8 := by
  induction m with
  | nil => by_cases hv : v = 0#8 <;> simp_all [write]
  | cons d rest ih =>
    obtain ⟨k, w⟩ := d
    unfold write at h
    by_cases hlt : k < a
    · rw [if_pos hlt] at h
      rcases List.mem_cons.mp h with rfl | h
      · exact .inl (by simp)
      · rcases ih h with h | h
        · exact .inl (by simp [h])
        · exact .inr h
    · by_cases hk : k = a <;> by_cases hv : v = 0#8 <;> simp_all <;> tauto

/-- A byte write keeps the canonical form. -/
theorem wf_write {m : Memory} (hm : m.wf) (a : Nat) (v : Byte) : (m.write a v).wf := by
  refine ⟨?_, fun c hc => ?_⟩
  · obtain ⟨hs, -⟩ := hm
    induction m with
    | nil => by_cases hv : v = 0#8 <;> simp [write, hv]
    | cons d rest ih =>
      obtain ⟨k, w⟩ := d
      obtain ⟨hhead, htail⟩ := List.pairwise_cons.mp hs
      unfold write
      by_cases hlt : k < a
      · rw [if_pos hlt]
        refine List.pairwise_cons.mpr ⟨fun c hc => ?_, ih htail⟩
        rcases mem_write hc with hc | ⟨rfl, -⟩
        · exact hhead c hc
        · exact hlt
      · rw [if_neg hlt]
        by_cases hk : k = a
        · subst hk
          by_cases hv : v = 0#8 <;> simp [hv, htail]
          exact fun x y hc => hhead (x, y) hc
        · have hak : a < k := by omega
          by_cases hv : v = 0#8
          · simpa [hk, hv] using hs
          · simp only [if_neg hk, if_neg hv]
            refine List.pairwise_cons.mpr ⟨fun c hc => ?_, hs⟩
            rcases List.mem_cons.mp hc with rfl | hc
            · exact hak
            · exact hak.trans (hhead c hc)
  · rcases mem_write hc with hc | ⟨rfl, hv⟩
    · exact hm.2 c hc
    · exact hv

/-- A word write keeps the canonical form. -/
theorem wf_writeWord {m : Memory} (hm : m.wf) (a : Nat) (v : Word) : (m.writeWord a v).wf :=
  wf_write (wf_write (wf_write (wf_write hm _ _) _ _) _ _) _ _

/-- Storing a list of bytes keeps the canonical form. -/
theorem wf_writeBytes {m : Memory} (hm : m.wf) (a : Nat) (bs : List Byte) : (m.writeBytes a bs).wf := by
  induction bs generalizing m a with
  | nil => exact hm
  | cons b bs ih => exact ih (wf_write hm a b) (a + 1)

/-- A word write leaves every byte outside its four alone. -/
theorem read_writeWord_outside (m : Memory) {a b : Nat} (v : Word) (h : b < a ∨ a + 4 ≤ b) :
    (m.writeWord a v).read b = m.read b := by
  unfold writeWord
  repeat rw [read_write_ne _ _ (by omega)]

/-- After a word write, byte `k` of the four reads as byte `k` of the word. -/
theorem read_writeWord_inside {m : Memory} (hm : m.wf) (a : Nat) (v : Word) {k : Nat} (hk : k < 4) :
    (m.writeWord a v).read (a + k) = wordByte v k := by
  have w1 := wf_write hm a (wordByte v 0)
  have w2 := wf_write w1 (a + 1) (wordByte v 1)
  have w3 := wf_write w2 (a + 2) (wordByte v 2)
  unfold writeWord
  rw [read_write w3, read_write w2, read_write w1, read_write hm]
  interval_cases k <;> simp

/-- The codec's round trip: the bytes of a word make that word again. -/
theorem wordOfBytes_wordByte (w : Word) :
    wordOfBytes (wordByte w 0) (wordByte w 1) (wordByte w 2) (wordByte w 3) = w := by
  apply BitVec.eq_of_getLsbD_eq
  intro i hi
  unfold wordOfBytes wordByte
  interval_cases i <;> simp only [BitVec.getLsbD_append, BitVec.getLsbD_extractLsb'] <;> simp

/-- The codec's other round trip: the word of four bytes has those bytes. -/
theorem wordByte_wordOfBytes (a b c d : Byte) :
    wordByte (wordOfBytes a b c d) 0 = a ∧ wordByte (wordOfBytes a b c d) 1 = b ∧
      wordByte (wordOfBytes a b c d) 2 = c ∧ wordByte (wordOfBytes a b c d) 3 = d := by
  refine ⟨?_, ?_, ?_, ?_⟩ <;> apply BitVec.eq_of_getLsbD_eq <;> intro i hi <;> unfold wordOfBytes wordByte <;>
    interval_cases i <;> simp only [BitVec.getLsbD_append, BitVec.getLsbD_extractLsb'] <;> simp

/-- Every cell after a word write is an old cell or one of the four written ones. -/
theorem mem_writeWord {m : Memory} {a : Nat} {v : Word} {c : Host.Cell} (h : c ∈ m.writeWord a v) :
    c ∈ m ∨ a ≤ c.1 ∧ c.1 < a + 4 := by
  unfold writeWord at h
  rcases mem_write h with h | ⟨rfl, -⟩
  · rcases mem_write h with h | ⟨rfl, -⟩
    · rcases mem_write h with h | ⟨rfl, -⟩
      · rcases mem_write h with h | ⟨rfl, -⟩
        · exact .inl h
        · exact .inr (by simp)
      · exact .inr (by simp)
    · exact .inr (by simp)
  · exact .inr (by simp)

end Sys2Proof.Machine.Memory
end

