-- ==== Sys2Proof/Laws/Operands.lean ====
section
/-!
SUPPORT. For each check a handler makes, one lemma that says everything it can do: if it answers the next state
t, either the check passed and the rest of the handler answered t, or t is the state with the fault raised. And
what push, pop and the string scan do to the parts of the state.
-/

namespace Sys2Proof.Machine

/-- A raw byte names register `r` when it is `r`'s number. -/
theorem regOf_eq_some {b : Byte} {r : Fin 4} : regOf b = some r ↔ b.toNat = r.val := by
  unfold regOf
  split
  · simp [Fin.ext_iff]
  · have := r.isLt
    simp only [reduceCtorEq, false_iff]
    omega

/-- A raw byte names no register when it is 4 or more. -/
theorem regOf_eq_none {b : Byte} : regOf b = none ↔ 4 ≤ b.toNat := by
  unfold regOf
  split <;> simp <;> omega

theorem checkLength_next {len : Nat} {s t : State} {k : Result} :
    checkLength len s k = .next t ↔ s.fits len ∧ k = .next t ∨ ¬ s.fits len ∧ s.raise .badAccess = t := by
  unfold checkLength
  split <;> simp [*]

theorem checkReg_next {b : Byte} {s t : State} {k : Fin 4 → Result} :
    checkReg b s k = .next t ↔
      (∃ r, regOf b = some r ∧ k r = .next t) ∨ regOf b = none ∧ s.raise .invalidRegisterIndex = t := by
  unfold checkReg
  split <;> simp [*]

theorem checkAvailable_next {n : Int} {s t : State} {k : Result} :
    checkAvailable n s k = .next t ↔
      n ≤ s.available ∧ k = .next t ∨ s.available < n ∧ s.raise .stackOverflow = t := by
  unfold checkAvailable
  split <;> rename_i h
  · simp [h]
  · simp [h, Int.not_lt.mp h]

theorem checkOccupied_next {n : Int} {s t : State} {k : Result} :
    checkOccupied n s k = .next t ↔
      n ≤ s.occupied ∧ k = .next t ∨ s.occupied < n ∧ s.raise .stackUnderflow = t := by
  unfold checkOccupied
  split <;> rename_i h
  · simp [h]
  · simp [h, Int.not_lt.mp h]

theorem checkData_next {ea : Word} {s t : State} {k : Result} :
    checkData ea s k = .next t ↔ s.dataOk ea ∧ k = .next t ∨ ¬ s.dataOk ea ∧ s.raise .badAccess = t := by
  unfold checkData
  split <;> rename_i h
  · exact ⟨fun e => .inl ⟨h, e⟩, fun e => e.elim (·.2) fun e => absurd h e.1⟩
  · exact ⟨fun e => .inr ⟨h, by simpa using e⟩, fun e => e.elim (fun e => absurd e.1 h) fun e => by rw [e.2]⟩

/-- A stack that holds 4 bytes is not empty. -/
theorem not_isEmpty_of_occupied {s : State} (h : 4 ≤ s.occupied) : ¬ s.isEmpty := by
  unfold State.occupied at h
  unfold State.isEmpty
  omega

/-- With 4 free bytes the address of the next push does not wrap. -/
theorem pushAddr_toInt {s : State} (h : 4 ≤ s.available) : s.pushAddr.toInt = s.sp.toInt - 4 := by
  unfold State.available at h
  unfold State.pushAddr
  have h1 := BitVec.le_toInt s.cfg.sl
  have h2 := BitVec.toInt_lt (x := s.sp)
  rw [BitVec.toInt_sub]
  rw [Int.bmod_eq_of_le] <;> simp at * <;> omega

/-- With 4 used bytes a pop's new sp does not wrap. -/
theorem popped_sp_toInt {s : State} (h : 4 ≤ s.occupied) : (s.sp + 4#32).toInt = s.sp.toInt + 4 := by
  unfold State.occupied at h
  have h1 := BitVec.le_toInt s.sp
  have h2 := BitVec.toInt_lt (x := s.cfg.ms)
  rw [BitVec.toInt_add]
  rw [Int.bmod_eq_of_le] <;> simp at * <;> omega

/-- A non-negative word's address is its value. -/
theorem toNat_of_nonneg {w : Word} (h : 0 ≤ w.toInt) : (w.toNat : Int) = w.toInt := by
  rw [BitVec.toInt_eq_toNat_cond] at *
  split at h <;> (simp_all; try omega)

/-- A scanned string holds no zero byte. -/
theorem scanString_nonzero {m : Memory} {n a : Nat} {bs : List Byte} (h : m.scanString n a = some bs) :
    ∀ b ∈ bs, b ≠ 0#8 := by
  induction n generalizing a bs with
  | zero => simp [Memory.scanString] at h
  | succ n ih =>
    unfold Memory.scanString at h
    split at h
    · simp_all
    · rename_i hb
      obtain ⟨tl, htl, rfl⟩ := Option.map_eq_some_iff.mp h
      intro b hbm
      rcases List.mem_cons.mp hbm with rfl | hbm
      · exact hb
      · exact ih htl b hbm

end Sys2Proof.Machine
end

