-- ==== Sys2Proof/Laws/Exec.lean ====
section
/-!
SUPPORT. What a handler can do, said once: `exec_next_cases`. If `exec i s` answers the next state t, then t is
s with one fault raised, or s stopped Undefined, or s after HALT, or t is the state the instruction's own rule
gives (`completes i s t`) and the run state is as it was. Later proofs take a handler apart by this lemma and do
not unfold it.
-/

namespace Sys2Proof.Machine

/-- After a pop from a stack that holds 4 bytes. -/
theorem pop_eq {s : State} (h : 4 ≤ s.occupied) :
    s.pop = (s.mem.readWord s.sp.toNat, { s with sp := s.sp + 4#32 }) :=
  State.pop_of_occupied (not_isEmpty_of_occupied h)

/-- A pop into a register from a stack that holds 4 bytes. -/
theorem popInto_eq {s : State} (h : 4 ≤ s.occupied) (r : Fin 4) :
    s.popInto r = { s.setReg r (s.mem.readWord s.sp.toNat) with sp := s.sp + 4#32 } := by
  unfold State.popInto
  rw [pop_eq h]
  rfl

/-- Popping into a register takes 4 bytes off the stack. -/
theorem occupied_popInto {s : State} (h : 4 ≤ s.occupied) (r : Fin 4) :
    (s.popInto r).occupied = s.occupied - 4 := by
  rw [popInto_eq h]
  have := popped_sp_toInt h
  simp only [State.occupied, State.setReg_cfg] at *
  omega

/-- Four pops from a stack that holds 16 bytes: x[3] from the top, x[0] from the deepest word. -/
theorem popAll_eq {s : State} (h : 16 ≤ s.occupied) :
    s.popAll = { s with
      x := #v[s.mem.readWord (s.sp + 12#32).toNat, s.mem.readWord (s.sp + 8#32).toNat,
        s.mem.readWord (s.sp + 4#32).toNat, s.mem.readWord s.sp.toNat]
      sp := s.sp + 16#32 } := by
  have h3 := occupied_popInto (by omega : 4 ≤ s.occupied) 3
  have h2 := occupied_popInto (by omega : 4 ≤ (s.popInto 3).occupied) 2
  have h1 := occupied_popInto (by omega : 4 ≤ ((s.popInto 3).popInto 2).occupied) 1
  unfold State.popAll
  rw [popInto_eq (by omega) 0, popInto_eq (by omega) 1, popInto_eq (by omega) 2, popInto_eq (by omega) 3]
  have hx (v : Vector Word 4) (a b c d : Word) :
      (((v.set 3 d).set 2 c).set 1 b).set 0 a = #v[a, b, c, d] := by
    apply Vector.ext
    intro i hi
    interval_cases i <;> simp
  simp only [State.setReg, BitVec.add_assoc, BitVec.ofNat_add_ofNat]
  congr 1
  exact hx _ _ _ _ _

/-- Pushing the four registers moves sp by 16 and changes memory, nothing else. -/
theorem pushAll_eq (s : State) : s.pushAll = { s with
    sp := s.sp - 16#32
    mem := (((s.mem.writeWord (s.sp - 4#32).toNat (s.reg 0)).writeWord (s.sp - 8#32).toNat
      (s.reg 1)).writeWord (s.sp - 12#32).toNat (s.reg 2)).writeWord (s.sp - 16#32).toNat (s.reg 3) } := by
  have h8 : s.sp - 4#32 - 4#32 = s.sp - 8#32 := by rw [BitVec.sub_sub]; rfl
  have h12 : s.sp - 8#32 - 4#32 = s.sp - 12#32 := by rw [BitVec.sub_sub]; rfl
  have h16 : s.sp - 12#32 - 4#32 = s.sp - 16#32 := by rw [BitVec.sub_sub]; rfl
  simp only [State.pushAll, State.push, State.pushAddr, h8, h12, h16]

/-- The state an instruction's own rule gives, and what must hold for it to be reached. -/
def completes (i : Instr) (s t : State) : Prop :=
  match i with
  | .add src dst => ∃ a d, regOf src = some a ∧ regOf dst = some d ∧
      t = (s.setReg d (wrap32 ((s.reg d).toInt + (s.reg a).toInt))).advance 3
  | .neg r => ∃ d, regOf r = some d ∧ t = (s.setReg d (wrap32 (-(s.reg d).toInt))).advance 2
  | .mul src dst => ∃ a d, regOf src = some a ∧ regOf dst = some d ∧
      t = (s.setReg d (wrap32 ((s.reg d).toInt * (s.reg a).toInt))).advance 3
  | .div src dst => ∃ a d, regOf src = some a ∧ regOf dst = some d ∧ (s.reg a).toInt ≠ 0 ∧
      t = (s.setReg d (wrap32 (tdiv (s.reg d).toInt (s.reg a).toInt))).advance 3
  | .mod src dst => ∃ a d, regOf src = some a ∧ regOf dst = some d ∧ (s.reg d).toInt ≠ 0 ∧
      t = (s.setReg d (wrap32 (trem (s.reg a).toInt (s.reg d).toInt))).advance 3
  | .cmp ra rb => ∃ a b, regOf ra = some a ∧ regOf rb = some b ∧
      t = State.advance { s with flags := s.flags.compare (s.reg a) (s.reg b) } 3
  | .ja target => t = if s.flags.above then s.jump target else s.advance 5
  | .je target => t = if s.flags.equal then s.jump target else s.advance 5
  | .jb target => t = if s.flags.below then s.jump target else s.advance 5
  | .jmp target => t = s.jump target
  | .call target => 4 ≤ s.available ∧ t = (s.push (s.pc + 5#32)).jump target
  | .ret => 4 ≤ s.occupied ∧
      t = { s with pc := s.mem.readWord s.sp.toNat, sp := s.sp + 4#32 }
  | .load r ea => ∃ d, regOf r = some d ∧ s.dataOk ea ∧
      t = (s.setReg d (s.mem.readWord ea.toNat)).advance 6
  | .store r ea => ∃ d, regOf r = some d ∧ s.dataOk ea ∧
      t = State.advance { s with mem := s.mem.writeWord ea.toNat (s.reg d) } 6
  | .const r imm => ∃ d, regOf r = some d ∧ t = (s.setReg d imm).advance 6
  | .rload ra rd => ∃ a d, regOf ra = some a ∧ regOf rd = some d ∧ s.dataOk (s.reg a) ∧
      t = (s.setReg d (s.mem.readWord (s.reg a).toNat)).advance 3
  | .rstore rd ra => ∃ d a, regOf rd = some d ∧ regOf ra = some a ∧ s.dataOk (s.reg a) ∧
      t = State.advance { s with mem := s.mem.writeWord (s.reg a).toNat (s.reg d) } 3
  | .halt => False
  | .int n => s.sp.toInt < s.cfg.ms.toInt ∧ ∃ e, t = { s with
        sp := s.sp + 4#32, out := s.out ++ [e], pc := s.pc + 2#32 } ∧
      (n = 1#8 ∧ e = .int (s.mem.readWord s.sp.toNat) ∨
        n = 2#8 ∧ ∃ str, s.cstring (s.mem.readWord s.sp.toNat) = some str ∧ e = .str str)
  | .nop => t = s.advance 1
  | .push r => ∃ d, regOf r = some d ∧ 4 ≤ s.available ∧ t = (s.push (s.reg d)).advance 2
  | .pushAll => 16 ≤ s.available ∧ t = s.pushAll.advance 1
  | .pop r => ∃ d, regOf r = some d ∧ 4 ≤ s.occupied ∧ t = { s.setReg d (s.mem.readWord s.sp.toNat) with
      sp := s.sp + 4#32, pc := s.pc + 2#32 }
  | .popAll => 16 ≤ s.occupied ∧ t = { s with
      x := #v[s.mem.readWord (s.sp + 12#32).toNat, s.mem.readWord (s.sp + 8#32).toNat,
        s.mem.readWord (s.sp + 4#32).toNat, s.mem.readWord s.sp.toNat]
      sp := s.sp + 16#32, pc := s.pc + 1#32 }
  | .lsp r => ∃ d, regOf r = some d ∧ t = (s.setReg d s.sp).advance 2

/-- A completing handler leaves the run state and the configuration. -/
theorem completes_run_cfg {i : Instr} {s t : State} (h : completes i s t) : t.run = s.run ∧ t.cfg = s.cfg := by
  cases i <;> simp only [completes] at h
  case ja | je | jb => split at h <;> subst h <;> exact ⟨rfl, rfl⟩
  all_goals (try obtain ⟨a, h⟩ := h); (try obtain ⟨b, h⟩ := h)
  all_goals simp_all [pushAll_eq]

/-- Everything a handler can do. -/
theorem exec_next_cases {i : Instr} {s t : State} (h : exec i s = .next t) :
    (∃ f, t = s.raise f) ∨ t = s.raiseUndefined .divideByZero ∨
      (i = .halt ∧ t = (s.advance s.cfg.haltPcAdvance.val).halt) ∨
      (s.fits (lengthOf i.mnemonic) ∧ completes i s t) := by
  have next_inj {a b : State} : (Host.Outcome.next a : Result) = .next b ↔ b = a :=
    ⟨fun e => by cases e; rfl, fun e => by rw [e]⟩
  cases i <;> simp only [exec, execAdd, execNeg, execMul, execDiv, execMod, execCmp, execJa, execJe, execJb,
    execJmp, jumpWhen, execCall, execRet, execLoad, execStore, execConst, execRload, execRstore, execHalt,
    execNop, execPush, execPushAll, execPop, execPopAll, execLsp, checkLength_next, checkReg_next,
    checkAvailable_next, checkOccupied_next, checkData_next, next_inj] at h
  case int n =>
    unfold execInt at h
    obtain ⟨hf, h⟩ | ⟨-, h⟩ := checkLength_next.mp h
    · split at h
      · exact .inl ⟨_, next_inj.mp h⟩
      · rename_i hn
        split at h
        · exact .inl ⟨_, next_inj.mp h⟩
        · rename_i he
          have hp := State.pop_of_occupied he
          rw [hp] at h
          have hlt : s.sp.toInt < s.cfg.ms.toInt := Int.not_le.mp he
          split at h
          · rename_i h1
            exact .inr (.inr (.inr ⟨hf, hlt, _, next_inj.mp h, .inl ⟨h1, rfl⟩⟩))
          · rename_i h1
            have h2 : n = 2#8 := by tauto
            split at h
            · exact .inl ⟨_, next_inj.mp h⟩
            · rename_i str hs
              exact .inr (.inr (.inr ⟨hf, hlt, _, next_inj.mp h, .inr ⟨h2, str, hs, rfl⟩⟩))
    · exact .inl ⟨_, h.symm⟩
  case add | mul | cmp =>
    rcases h with ⟨hf, ⟨a, ha, ⟨d, hd, h⟩ | ⟨-, h⟩⟩ | ⟨-, h⟩⟩ | ⟨-, h⟩
    exacts [.inr (.inr (.inr ⟨hf, a, d, ha, hd, h⟩)), .inl ⟨_, h.symm⟩, .inl ⟨_, h.symm⟩, .inl ⟨_, h.symm⟩]
  case div | mod =>
    rcases h with ⟨hf, ⟨a, ha, ⟨d, hd, h⟩ | ⟨-, h⟩⟩ | ⟨-, h⟩⟩ | ⟨-, h⟩
    · split at h
      · exact .inr (.inl (next_inj.mp h))
      · exact .inr (.inr (.inr ⟨hf, a, d, ha, hd, ‹_›, next_inj.mp h⟩))
    exacts [.inl ⟨_, h.symm⟩, .inl ⟨_, h.symm⟩, .inl ⟨_, h.symm⟩]
  case neg | const | lsp =>
    rcases h with ⟨hf, ⟨d, hd, h⟩ | ⟨-, h⟩⟩ | ⟨-, h⟩
    exacts [.inr (.inr (.inr ⟨hf, d, hd, h⟩)), .inl ⟨_, h.symm⟩, .inl ⟨_, h.symm⟩]
  case ja | je | jb =>
    rcases h with ⟨hf, h⟩ | ⟨-, h⟩
    · refine .inr (.inr (.inr ⟨hf, ?_⟩))
      unfold completes
      split at h <;> simp_all
    · exact .inl ⟨_, h.symm⟩
  case jmp =>
    rcases h with ⟨hf, h⟩ | ⟨-, h⟩
    exacts [.inr (.inr (.inr ⟨hf, (by simpa using h : s.jump _ = t).symm⟩)), .inl ⟨_, h.symm⟩]
  case nop =>
    rcases h with ⟨hf, h⟩ | ⟨-, h⟩
    exacts [.inr (.inr (.inr ⟨hf, h⟩)), .inl ⟨_, h.symm⟩]
  case halt =>
    rcases h with ⟨-, h⟩ | ⟨-, h⟩
    exacts [.inr (.inr (.inl ⟨rfl, h⟩)), .inl ⟨_, h.symm⟩]
  case call | pushAll =>
    rcases h with ⟨hf, ⟨hv, h⟩ | ⟨-, h⟩⟩ | ⟨-, h⟩
    exacts [.inr (.inr (.inr ⟨hf, hv, h⟩)), .inl ⟨_, h.symm⟩, .inl ⟨_, h.symm⟩]
  case ret =>
    rcases h with ⟨hf, ⟨hv, h⟩ | ⟨-, h⟩⟩ | ⟨-, h⟩
    · exact .inr (.inr (.inr ⟨hf, hv, by rw [h, pop_eq hv]; rfl⟩))
    exacts [.inl ⟨_, h.symm⟩, .inl ⟨_, h.symm⟩]
  case popAll =>
    rcases h with ⟨hf, ⟨hv, h⟩ | ⟨-, h⟩⟩ | ⟨-, h⟩
    · exact .inr (.inr (.inr ⟨hf, hv, by rw [h, popAll_eq hv]; rfl⟩))
    exacts [.inl ⟨_, h.symm⟩, .inl ⟨_, h.symm⟩]
  case push =>
    rcases h with ⟨hf, ⟨d, hd, ⟨hv, h⟩ | ⟨-, h⟩⟩ | ⟨-, h⟩⟩ | ⟨-, h⟩
    exacts [.inr (.inr (.inr ⟨hf, d, hd, hv, h⟩)), .inl ⟨_, h.symm⟩, .inl ⟨_, h.symm⟩, .inl ⟨_, h.symm⟩]
  case pop =>
    rcases h with ⟨hf, ⟨d, hd, ⟨hv, h⟩ | ⟨-, h⟩⟩ | ⟨-, h⟩⟩ | ⟨-, h⟩
    · exact .inr (.inr (.inr ⟨hf, d, hd, hv, by rw [h, popInto_eq hv]; rfl⟩))
    exacts [.inl ⟨_, h.symm⟩, .inl ⟨_, h.symm⟩, .inl ⟨_, h.symm⟩]
  case load | store =>
    rcases h with ⟨hf, ⟨d, hd, ⟨ho, h⟩ | ⟨-, h⟩⟩ | ⟨-, h⟩⟩ | ⟨-, h⟩
    exacts [.inr (.inr (.inr ⟨hf, d, hd, ho, h⟩)), .inl ⟨_, h.symm⟩, .inl ⟨_, h.symm⟩, .inl ⟨_, h.symm⟩]
  case rload | rstore =>
    rcases h with ⟨hf, ⟨a, ha, ⟨d, hd, ⟨ho, h⟩ | ⟨-, h⟩⟩ | ⟨-, h⟩⟩ | ⟨-, h⟩⟩ | ⟨-, h⟩
    exacts [.inr (.inr (.inr ⟨hf, a, d, ha, hd, ho, h⟩)), .inl ⟨_, h.symm⟩, .inl ⟨_, h.symm⟩,
      .inl ⟨_, h.symm⟩, .inl ⟨_, h.symm⟩]

end Sys2Proof.Machine
end

