-- ==== Sys2Proof/Laws/PerInstr.lean ====
section
/-!
SUPPORT. The per-instruction family EncodedLength: the encoder gives every instruction exactly as many bytes as
the table of 30_encoding.md R72 says it has, under every opcode map.
-/

namespace Sys2Proof.Laws.EncodedLength

/-- The encoding of `i` has the table's length. -/
def Statement (i : Instr) : Prop := ∀ ops : OpcodeMap, (encode ops i).length = lengthOf i.mnemonic

theorem add (src dst : Byte) : Statement (.add src dst) := fun _ => rfl
theorem neg (r : Byte) : Statement (.neg r) := fun _ => rfl
theorem mul (src dst : Byte) : Statement (.mul src dst) := fun _ => rfl
theorem div (src dst : Byte) : Statement (.div src dst) := fun _ => rfl
theorem mod (src dst : Byte) : Statement (.mod src dst) := fun _ => rfl
theorem cmp (a b : Byte) : Statement (.cmp a b) := fun _ => rfl
theorem ja (t : Word) : Statement (.ja t) := fun _ => rfl
theorem je (t : Word) : Statement (.je t) := fun _ => rfl
theorem jb (t : Word) : Statement (.jb t) := fun _ => rfl
theorem jmp (t : Word) : Statement (.jmp t) := fun _ => rfl
theorem call (t : Word) : Statement (.call t) := fun _ => rfl
theorem ret : Statement .ret := fun _ => rfl
theorem load (r : Byte) (a : Word) : Statement (.load r a) := fun _ => rfl
theorem store (r : Byte) (a : Word) : Statement (.store r a) := fun _ => rfl
theorem const (r : Byte) (w : Word) : Statement (.const r w) := fun _ => rfl
theorem rload (a d : Byte) : Statement (.rload a d) := fun _ => rfl
theorem rstore (d a : Byte) : Statement (.rstore d a) := fun _ => rfl
theorem halt : Statement .halt := fun _ => rfl
theorem int (n : Byte) : Statement (.int n) := fun _ => rfl
theorem nop : Statement .nop := fun _ => rfl
theorem push (r : Byte) : Statement (.push r) := fun _ => rfl
theorem pushAll : Statement .pushAll := fun _ => rfl
theorem pop (r : Byte) : Statement (.pop r) := fun _ => rfl
theorem popAll : Statement .popAll := fun _ => rfl
theorem lsp (r : Byte) : Statement (.lsp r) := fun _ => rfl

end Sys2Proof.Laws.EncodedLength
end

