-- ==== Sys2Proof/Tests/Slice0.lean ====
section
/-!
SUPPORT. Tests. The expected results are the worked examples and vectors of 95_test_vectors.md (each test names
its vector, V-...), none is the model's own answer. First the well-formedness smoke tests, then decoding, then
one step per instruction. At the end, one witness per statement that has hypotheses: `test_witness_<Name>` shows
states and operands that meet the hypotheses of Obligations.<Name>, at the boundary values of each clause.
-/

namespace Sys2Proof.Tests

open Sys2Proof.Machine

/-! ### Helpers -/

/-- A configuration with the reference opcodes and HALT_PC_ADVANCE = 0. -/
def config (ms sl : Word) : Config := { ms := ms, sl := sl, opcodes := referenceOpcodes, haltPcAdvance := 0 }

/-- The default state of 95_test_vectors.md for a memory size and stack limit, with the instruction's bytes
placed at pc and other bytes placed at an address. -/
def start (ms sl pc : Word) (code : List Byte) (at_ : Nat := 0) (data : List Byte := []) : State :=
  let s := State.init (config ms sl)
  { s with pc := pc, mem := (s.mem.writeBytes pc.toNat code).writeBytes at_ data }

/-- The next state, if there is one. -/
def next? : Result → Option State
  | .next t => some t
  | .fault _ => none
  | .refused _ => none

/-- The fault's end state: its flag set, run Halted, nothing else changed. -/
def faulted (s : State) (flags : Flags) : Option State := some { s with flags := flags, run := .halted }

/-! ### Well-formedness: one ill-formed term for each check -/

theorem test_wf_register_3_is_the_last : (Instr.add 0 3).wf = true ∧ (Instr.add 0 4).wf = false := by decide

theorem test_wf_refuses_each_register_operand :
    (Instr.add 4 0).wf = false ∧ (Instr.rload 0 255).wf = false ∧ (Instr.rstore 9 0).wf = false ∧
      (Instr.load 4 0).wf = false ∧ (Instr.push 4).wf = false := by decide

theorem test_wf_interrupt_numbers :
    (Instr.int 1).wf = true ∧ (Instr.int 2).wf = true ∧ (Instr.int 0).wf = false ∧
      (Instr.int 3).wf = false := by decide

/-- R73: the reference assignment is legal; a repeated byte and 0x99 are not. -/
theorem test_legal_opcode_maps :
    referenceOpcodes.legal = true ∧ OpcodeMap.legal (referenceOpcodes.set 1 0x01#8) = false ∧
      OpcodeMap.legal (referenceOpcodes.set 24 0x99#8) = false := by decide

/-- R9, R38: MS and SL are multiples of 4, not negative; SL may be above MS. -/
theorem test_legal_configurations :
    (config 12 4).legal = true ∧ (config 0 0).legal = true ∧ (config 8 12).legal = true ∧
      (config 10 4).legal = false ∧ (config 12 3).legal = false ∧ (config (-4) 4).legal = false ∧
      (config 12 (-4)).legal = false ∧
      Config.legal { config 12 4 with opcodes := referenceOpcodes.set 0 0x19#8 } = false := by decide

/-! ### Decoding: every constructor, its bytes written out from R72 and the vectors -/

/-- V-A1, V-A6, V-A9, V-A14, V-A21. -/
theorem test_decode_arithmetic :
    decode referenceOpcodes [0x01, 0x01, 0x02] = .instr (.add 1 2) [] ∧
      decode referenceOpcodes [0x02, 0x03] = .instr (.neg 3) [] ∧
      decode referenceOpcodes [0x03, 0x00, 0x01] = .instr (.mul 0 1) [] ∧
      decode referenceOpcodes [0x04, 0x00, 0x01] = .instr (.div 0 1) [] ∧
      decode referenceOpcodes [0x05, 0x00, 0x01] = .instr (.mod 0 1) [] := by decide

/-- V-C1, V-C9, V-C11, V-C13, V-C16, V-C18, V-C21. -/
theorem test_decode_compare_control :
    decode referenceOpcodes [0x06, 0x00, 0x01] = .instr (.cmp 0 1) [] ∧
      decode referenceOpcodes [0x07, 0x20, 0x00, 0x00, 0x00] = .instr (.ja 32) [] ∧
      decode referenceOpcodes [0x08, 0x15, 0x00, 0x00, 0x00] = .instr (.je 21) [] ∧
      decode referenceOpcodes [0x09, 0x00, 0x00, 0x00, 0x00] = .instr (.jb 0) [] ∧
      decode referenceOpcodes [0x0A, 0xFC, 0xFF, 0xFF, 0xFF] = .instr (.jmp (-4)) [] ∧
      decode referenceOpcodes [0x0B, 0x12, 0x00, 0x00, 0x00] = .instr (.call 18) [] ∧
      decode referenceOpcodes [0x0C] = .instr .ret [] := by decide

/-- V-D1, V-D8, V-D12, V-D14, V-D18. -/
theorem test_decode_data_movement :
    decode referenceOpcodes [0x0D, 0x02, 0x40, 0x00, 0x00, 0x00] = .instr (.load 2 64) [] ∧
      decode referenceOpcodes [0x0E, 0x01, 0x64, 0x00, 0x00, 0x00] = .instr (.store 1 100) [] ∧
      decode referenceOpcodes [0x0F, 0x03, 0x00, 0x00, 0x00, 0x80] = .instr (.const 3 0x80000000) [] ∧
      decode referenceOpcodes [0x10, 0x00, 0x02] = .instr (.rload 0 2) [] ∧
      decode referenceOpcodes [0x11, 0x01, 0x00] = .instr (.rstore 1 0) [] := by decide

/-- V-S1, V-S6, V-S15. -/
theorem test_decode_system :
    decode referenceOpcodes [0x12] = .instr .halt [] ∧
      decode referenceOpcodes [0x13, 0x02] = .instr (.int 2) [] ∧
      decode referenceOpcodes [0x14] = .instr .nop [] := by decide

/-- V-K2, V-K6, V-K8, V-K10, V-K12; and the bytes after an instruction are left. -/
theorem test_decode_stack :
    decode referenceOpcodes [0x15, 0x01] = .instr (.push 1) [] ∧
      decode referenceOpcodes [0x16] = .instr .pushAll [] ∧
      decode referenceOpcodes [0x17, 0x02] = .instr (.pop 2) [] ∧
      decode referenceOpcodes [0x18] = .instr .popAll [] ∧
      decode referenceOpcodes [0x19, 0x03, 0x12] = .instr (.lsp 3) [0x12] := by decide

/-- R71, R73, R74: 0x00, 0x1A, 0x99 and 0xFF are SENTINEL; a mapped opcode with too few bytes is truncated; a
register byte that names no register still decodes (R75). -/
theorem test_decode_rejects_by_name :
    decode referenceOpcodes [] = .noByte ∧
      decode referenceOpcodes [0x00, 0x01] = .unmapped 0x00 ∧
      decode referenceOpcodes [0x1A] = .unmapped 0x1A ∧
      decode referenceOpcodes [0x99] = .unmapped 0x99 ∧
      decode referenceOpcodes [0xFF] = .unmapped 0xFF ∧
      decode referenceOpcodes [0x0F, 0x00, 0x01, 0x00, 0x00] = .truncated .const ∧
      decode referenceOpcodes [0x01, 0x07] = .truncated .add ∧
      decode referenceOpcodes [0x01, 0x04, 0x00] = .instr (.add 4 0) [] := by decide

/-- The numbering of spec/opcode_table.json: the first byte is bits 7..0; bits it does not give are 0. -/
theorem test_decode_table_word :
    decodeTableWord 24 0x020101 = some (.add 1 2) ∧ decodeTableWord 48 0x80000000030F = some (.const 3 0x80000000) ∧
      decodeTableWord 8 0x0A = some (.jmp 0) ∧ decodeTableWord 8 0x99 = none := by decide

/-- A table word placed where the first step after reset fetches is run. -/
theorem test_step_runs_a_table_word_after_reset :
    next? (step (State.reset.withFetchWord 24 0x020101)) =
        next? (exec (.add 1 2) (State.reset.withFetchWord 24 0x020101)) ∧
      (next? (step (State.reset.withFetchWord 24 0x020101))).map (·.pc) = some 3 := by decide

/-! ### The cycle -/

/-- V-F1, V-F2: pc outside [0, MS). -/
theorem test_fetch_out_of_range :
    next? (step (start 32 16 32 [])) = faulted (start 32 16 32 []) { Flags.clear with badAccess := true } ∧
      next? (step { start 32 16 0 [] with pc := -4 }) =
        faulted { start 32 16 0 [] with pc := -4 } { Flags.clear with badAccess := true } := by decide

/-- V-F4 (W5): opcode 0x99. -/
theorem test_fetch_unmapped :
    next? (step (start 32 16 0 [0x99])) =
      faulted (start 32 16 0 [0x99]) { Flags.clear with badInstruction := true } := by decide

/-- V-F6, V-F8: the length check, before the register check; V-F7 fits exactly. -/
theorem test_fetch_length_check :
    next? (step (start 8 8 3 [0x0F, 0x00, 0x01, 0x00, 0x00])) =
        faulted (start 8 8 3 [0x0F, 0x00, 0x01, 0x00, 0x00]) { Flags.clear with badAccess := true } ∧
      next? (step (start 8 8 6 [0x01, 0x07])) =
        faulted (start 8 8 6 [0x01, 0x07]) { Flags.clear with badAccess := true } ∧
      (next? (step (start 8 8 3 [0x0A, 0x00, 0x00, 0x00, 0x00]))).map (·.pc) = some 0 := by decide

/-- R111: a Halted or Undefined state has no next state. -/
theorem test_finished_runs_stop :
    next? (step { start 32 16 0 [0x14] with run := .halted }) = none ∧
      next? (step { start 32 16 0 [0x14] with run := .undefined .divideByZero }) = none := by decide

/-! ### Arithmetic -/

/-- V-A2. -/
theorem test_add_wraps :
    let s := { start 32 16 0 [0x01, 0x00, 0x01] with x := #v[1, 2147483647, 0, 0] };
    next? (step s) = some { s with x := #v[1, 0x80000000, 0, 0], pc := 3 } := by decide

/-- V-F9, V-F10. -/
theorem test_add_refuses_register_4 :
    (let s := start 32 16 0 [0x01, 0x00, 0x04];
      next? (step s) = faulted s { Flags.clear with invalidRegisterIndex := true }) ∧
      let s := start 32 16 0 [0x01, 0x04, 0x00];
      next? (step s) = faulted s { Flags.clear with invalidRegisterIndex := true } := by decide

/-- V-A6. -/
theorem test_neg :
    let s := { start 32 16 0 [0x02, 0x03] with x := #v[0, 0, 0, 5] };
    next? (step s) = some { s with x := #v[0, 0, 0, -5], pc := 2 } := by decide

/-- V-A7. -/
theorem test_neg_of_the_least_word :
    let s := { start 32 16 0 [0x02, 0x00] with x := #v[0x80000000, 0, 0, 0] };
    next? (step s) = some { s with x := #v[0x80000000, 0, 0, 0], pc := 2 } := by decide

/-- V-A11. -/
theorem test_mul_wraps :
    let s := { start 32 16 0 [0x03, 0x00, 0x01] with x := #v[2, 2147483647, 0, 0] };
    next? (step s) = some { s with x := #v[2, -2, 0, 0], pc := 3 } := by decide

/-- V-A30. -/
theorem test_mul_square :
    let s := { start 32 16 0 [0x03, 0x02, 0x02] with x := #v[0, 0, -3, 0] };
    next? (step s) = some { s with x := #v[0, 0, 9, 0], pc := 3 } := by decide

/-- V-A15, V-A18. -/
theorem test_div_truncates_and_wraps :
    (let s := { start 32 16 0 [0x04, 0x00, 0x01] with x := #v[2, -7, 0, 0] };
      next? (step s) = some { s with x := #v[2, -3, 0, 0], pc := 3 }) ∧
      let s := { start 32 16 0 [0x04, 0x00, 0x01] with x := #v[-1, 0x80000000, 0, 0] };
      next? (step s) = some { s with x := #v[-1, 0x80000000, 0, 0], pc := 3 } := by decide

/-- V-A19. -/
theorem test_div_by_zero :
    let s := { start 32 16 0 [0x04, 0x00, 0x01] with x := #v[0, 7, 0, 0] };
    next? (step s) = some { s with run := .undefined .divideByZero } := by decide

/-- V-A21, V-A23, V-A24: x[src] % x[dst], the sign of the dividend. -/
theorem test_mod_operand_order_and_sign :
    (let s := { start 32 16 0 [0x05, 0x00, 0x01] with x := #v[7, 3, 0, 0] };
      next? (step s) = some { s with x := #v[7, 1, 0, 0], pc := 3 }) ∧
      (let s := { start 32 16 0 [0x05, 0x00, 0x01] with x := #v[-7, 3, 0, 0] };
      next? (step s) = some { s with x := #v[-7, -1, 0, 0], pc := 3 }) ∧
      let s := { start 32 16 0 [0x05, 0x00, 0x01] with x := #v[7, -3, 0, 0] };
      next? (step s) = some { s with x := #v[7, 1, 0, 0], pc := 3 } := by decide

/-- V-A27. -/
theorem test_mod_by_zero :
    let s := { start 32 16 0 [0x05, 0x00, 0x01] with x := #v[5, 0, 0, 0] };
    next? (step s) = some { s with run := .undefined .divideByZero } := by decide

/-! ### Comparison and control transfer -/

/-- V-C5. -/
theorem test_cmp_is_signed :
    let s := { start 32 16 0 [0x06, 0x00, 0x01] with x := #v[0x80000000, 2147483647, 0, 0] };
    next? (step s) = some { s with flags := { Flags.clear with below := true }, pc := 3 } := by decide

/-- V-C6. -/
theorem test_cmp_clears_the_other_flags :
    let s := { start 32 16 0 [0x06, 0x00, 0x01] with
      x := #v[4, 4, 0, 0], flags := { Flags.clear with above := true } }
    next? (step s) = some { s with flags := { Flags.clear with equal := true }, pc := 3 } := by decide

/-- V-C9, V-C10. -/
theorem test_ja :
    (let s := { start 64 32 0 [0x07, 0x20, 0, 0, 0] with flags := { Flags.clear with above := true } };
      next? (step s) = some { s with pc := 32 }) ∧
      let s := { start 64 32 0 [0x07, 0x20, 0, 0, 0] with flags := { Flags.clear with equal := true } };
      next? (step s) = some { s with pc := 5 } := by decide

/-- V-C11, V-C12. -/
theorem test_je :
    (let s := { start 32 16 0 [0x08, 0x15, 0, 0, 0] with flags := { Flags.clear with equal := true } };
      next? (step s) = some { s with pc := 21 }) ∧
      let s := { start 32 16 0 [0x08, 0x15, 0, 0, 0] with flags := { Flags.clear with below := true } };
      next? (step s) = some { s with pc := 5 } := by decide

/-- V-C13, V-C14. -/
theorem test_jb :
    (let s := { start 32 16 8 [0x09, 0, 0, 0, 0] with flags := { Flags.clear with below := true } };
      next? (step s) = some { s with pc := 0 }) ∧
      let s := start 32 16 8 [0x09, 0, 0, 0, 0];
      next? (step s) = some { s with pc := 13 } := by decide

/-- V-C16, its first step. -/
theorem test_jmp_out_of_range :
    let s := start 32 16 0 [0x0A, 0xFC, 0xFF, 0xFF, 0xFF];
    next? (step s) = some { s with pc := -4 } := by decide

/-- V-C18. -/
theorem test_call :
    let s := start 64 48 12 [0x0B, 0x12, 0, 0, 0];
    next? (step s) = some { s with pc := 18, sp := 60, mem := s.mem.writeBytes 60 [0x11] } := by decide

/-- V-C20. -/
theorem test_call_overflow :
    let s := { start 64 48 12 [0x0B, 0x12, 0, 0, 0] with sp := 48 };
    next? (step s) = faulted s { Flags.clear with stackOverflow := true } := by decide

/-- V-C21. -/
theorem test_ret :
    let s := { start 64 48 27 [0x0C] 60 [0x11, 0, 0, 0] with sp := 60 };
    next? (step s) = some { s with pc := 17, sp := 64 } := by decide

/-- V-C22. -/
theorem test_ret_underflow :
    let s := start 64 48 27 [0x0C];
    next? (step s) = faulted s { Flags.clear with stackUnderflow := true } := by decide

/-! ### Data movement -/

/-- V-D2. -/
theorem test_load_is_little_endian :
    let s := start 128 112 0 [0x0D, 0x00, 0x41, 0, 0, 0] 64 [0, 1, 2, 3, 4, 5, 6, 7];
    next? (step s) = some { s with x := #v[67305985, 0, 0, 0], pc := 6 } := by decide

/-- V-D4, V-D5. -/
theorem test_load_out_of_range :
    (let s := start 32 16 0 [0x0D, 0x00, 0x1D, 0, 0, 0];
      next? (step s) = faulted s { Flags.clear with badAccess := true }) ∧
      let s := start 32 16 0 [0x0D, 0x00, 0xFF, 0xFF, 0xFF, 0xFF];
      next? (step s) = faulted s { Flags.clear with badAccess := true } := by decide

/-- V-D10: the store lands on its own operand bytes. -/
theorem test_store_over_its_own_operand :
    let s := { start 32 16 0 [0x0E, 0x00, 0x02, 0, 0, 0] with x := #v[287454020, 0, 0, 0] };
    next? (step s) = some { s with pc := 6, mem := s.mem.writeBytes 2 [0x44, 0x33, 0x22, 0x11] } := by decide

/-- V-D9. -/
theorem test_store_out_of_range :
    let s := { start 32 16 0 [0x0E, 0x00, 0x20, 0, 0, 0] with x := #v[7, 0, 0, 0] };
    next? (step s) = faulted s { Flags.clear with badAccess := true } := by decide

/-- V-D12. -/
theorem test_const :
    let s := { start 32 16 0 [0x0F, 0x03, 0x00, 0x00, 0x00, 0x80] with x := #v[0, 0, 0, 9] };
    next? (step s) = some { s with x := #v[0, 0, 0, 0x80000000], pc := 6 } := by decide

/-- V-D14. -/
theorem test_rload :
    let s := { start 128 112 0 [0x10, 0x00, 0x02] 64 [0xFE, 0xFF, 0xFF, 0xFF] with x := #v[64, 0, 0, 0] };
    next? (step s) = some { s with x := #v[64, 0, -2, 0], pc := 3 } := by decide

/-- V-D17, V-D16. -/
theorem test_rload_faults :
    (let s := start 32 16 0 [0x10, 0x00, 0x07];
      next? (step s) = faulted s { Flags.clear with invalidRegisterIndex := true }) ∧
      let s := { start 32 16 0 [0x10, 0x00, 0x01] with x := #v[-4, 0, 0, 0] };
      next? (step s) = faulted s { Flags.clear with badAccess := true } := by decide

/-- V-D18: the data register comes first and pc advances. -/
theorem test_rstore :
    let s := { start 128 112 0 [0x11, 0x01, 0x00] with x := #v[64, -2, 0, 0] };
    next? (step s) = some { s with pc := 3, mem := s.mem.writeBytes 64 [0xFE, 0xFF, 0xFF, 0xFF] } := by decide

/-- V-D20. -/
theorem test_rstore_out_of_range :
    let s := { start 32 16 0 [0x11, 0x01, 0x00] with x := #v[30, 5, 0, 0] };
    next? (step s) = faulted s { Flags.clear with badAccess := true } := by decide

/-! ### System -/

/-- V-S1, V-S2. -/
theorem test_halt :
    (let s := start 32 16 20 [0x12];
      next? (step s) = some { s with run := .halted }) ∧
      let s := { start 32 16 20 [0x12] with cfg := { config 32 16 with haltPcAdvance := 1 } };
      next? (step s) = some { s with run := .halted, pc := 21 } := by decide

/-- V-S5; V-S12 (the number is checked before the empty stack); V-S13. -/
theorem test_int_1 :
    (let s := { start 32 16 0 [0x13, 0x01] 28 [0xFF, 0xFF, 0xFF, 0xFF] with sp := 28 };
      next? (step s) = some { s with pc := 2, sp := 32, out := [.int (-1)] }) ∧
      (let s := start 32 16 0 [0x13, 0x03];
      next? (step s) = faulted s { Flags.clear with badInstruction := true }) ∧
      let s := start 32 16 0 [0x13, 0x01];
      next? (step s) = faulted s { Flags.clear with badAccess := true } := by decide

/-- V-S6; V-S8 (no zero byte below MS); V-S9 (a negative address). -/
theorem test_int_2 :
    (let s := { start 32 16 0 [0x13, 0x02] 20 [0x48, 0x69, 0, 0, 0, 0, 0, 0, 0x14] with sp := 28 };
      next? (step s) = some { s with pc := 2, sp := 32, out := [.str [72, 105]] }) ∧
      (let s := { start 32 16 0 [0x13, 0x02] 24 [0x1C, 0, 0, 0, 0x41, 0x42, 0x43, 0x44] with sp := 24 };
      next? (step s) = faulted s { Flags.clear with badAccess := true }) ∧
      let s := { start 32 16 0 [0x13, 0x02] 28 [0xFF, 0xFF, 0xFF, 0xFF] with sp := 28 };
      next? (step s) = faulted s { Flags.clear with badAccess := true } := by decide

/-- V-S15. -/
theorem test_nop :
    let s := start 32 16 12 [0x14];
    next? (step s) = some { s with pc := 13 } := by decide

/-! ### Stack -/

/-- V-K2. -/
theorem test_push_into_the_last_slot :
    let s := { start 64 48 0 [0x15, 0x01] with x := #v[0, -1, 0, 0], sp := 52 };
    next? (step s) = some { s with
      pc := 2, sp := 48, mem := s.mem.writeBytes 48 [0xFF, 0xFF, 0xFF, 0xFF] } := by decide

/-- V-K3, V-K4 (SL above MS). -/
theorem test_push_overflow :
    (let s := { start 64 48 0 [0x15, 0x01] with x := #v[0, -1, 0, 0], sp := 48 };
      next? (step s) = faulted s { Flags.clear with stackOverflow := true }) ∧
      let s := { start 16 20 0 [0x15, 0x00] with x := #v[1, 0, 0, 0] };
      next? (step s) = faulted s { Flags.clear with stackOverflow := true } := by decide

/-- V-K6. -/
theorem test_push_all :
    let s := { start 64 32 10 [0x16] with x := #v[1, 2, 3, 4] };
    next? (step s) = some { s with
      pc := 11, sp := 48, mem := s.mem.writeBytes 48 [4, 0, 0, 0, 3, 0, 0, 0, 2, 0, 0, 0, 1] } := by decide

/-- V-K14: 12 free bytes are too few. -/
theorem test_push_all_overflow :
    let s := { start 64 48 10 [0x16] with x := #v[1, 2, 3, 4], sp := 60 };
    next? (step s) = faulted s { Flags.clear with stackOverflow := true } := by decide

/-- V-K8. -/
theorem test_pop :
    let s := { start 64 48 0 [0x17, 0x02] 56 [7] with sp := 56 };
    next? (step s) = some { s with x := #v[0, 0, 7, 0], pc := 2, sp := 60 } := by decide

/-- V-K9. -/
theorem test_pop_underflow :
    let s := start 64 48 0 [0x17, 0x02];
    next? (step s) = faulted s { Flags.clear with stackUnderflow := true } := by decide

/-- V-K10. -/
theorem test_pop_all :
    let s := { start 64 32 10 [0x18] 48 [4, 0, 0, 0, 3, 0, 0, 0, 2, 0, 0, 0, 1] with sp := 48 };
    next? (step s) = some { s with x := #v[1, 2, 3, 4], pc := 11, sp := 64 } := by decide

/-- V-K11: 12 used bytes are too few. -/
theorem test_pop_all_underflow :
    let s := { start 64 32 10 [0x18] with x := #v[9, 9, 9, 9], sp := 52 };
    next? (step s) = faulted s { Flags.clear with stackUnderflow := true } := by decide

/-- V-K12. -/
theorem test_lsp :
    let s := { start 64 48 0 [0x19, 0x03] with sp := 60 };
    next? (step s) = some { s with x := #v[0, 0, 0, 60], pc := 2 } := by decide

/-! ### Initialisation and diagnostics -/

/-- V-I1, V-I2, V-I6. -/
theorem test_launch_rounds_up :
    (let s := launch 10 3 referenceOpcodes 0 [];
      s.cfg = config 12 4 ∧ s.sp = 12 ∧ s.available = 8 ∧ s.occupied = 0) ∧
      (launch 16 16 referenceOpcodes 0 []).cfg = config 16 16 ∧
      (launch 13 0 referenceOpcodes 0 []).cfg = config 16 0 := by decide

/-- V-I4: the image at address 0, and the snapshot of R235. -/
theorem test_launch_loads_the_image :
    let s := launch 8 8 referenceOpcodes 0 [0x14, 0x14];
    s.mem.readBytes 0 8 = [0x14, 0x14, 0, 0, 0, 0, 0, 0] ∧
      s.snapshot = { flags := Flags.clear, x := #v[0, 0, 0, 0], run := .running } := by decide

/-- log 11: with nothing placed, the first step after reset fetches 0x00, which is unmapped. -/
theorem test_empty_reset_memory_faults :
    next? (step State.reset) = faulted State.reset { Flags.clear with badInstruction := true } := by decide

/-! ### Witnesses: the hypotheses of the statements are met -/

/-- A state in which `len` bytes at pc end exactly at MS = 32: the last pc that passes the length check. -/
def fitting (len : Nat) : State := start 32 16 (BitVec.ofNat 32 (32 - len)) []

/-- A state in which `len` bytes at pc end one byte past MS = 32: the first pc that fails it. -/
def cutOff (len : Nat) : State := start 32 16 (BitVec.ofNat 32 (33 - len)) []

/-- The two sides of the length check, at its boundary. -/
abbrev lengthClauses (len : Nat) : Prop :=
  (fitting len).pc.toInt + len = (fitting len).cfg.ms.toInt ∧
    (cutOff len).cfg.ms.toInt + 1 = (cutOff len).pc.toInt + len

/-- The length check's two sides, and a register byte that is the first of the invalid ones. -/
abbrev stopClauses (len : Nat) (bad : Instr) : Prop :=
  lengthClauses len ∧ ∃ b ∈ bad.regBytes, b.toNat = 4

/-- `step s` answers a next state with the property. -/
abbrev stepsTo (s : State) (P : State → Bool) : Prop := ((next? (step s)).map P) = some true

/-- `exec i s` answers a next state with the property. -/
abbrev runsTo (i : Instr) (s : State) (P : State → Bool) : Prop := ((next? (exec i s)).map P) = some true

theorem test_witness_DecodeOfEncodeIsTheInstruction :
    referenceOpcodes.legal = true ∧ OpcodeMap.legal (referenceOpcodes.set 0 0xFF#8) = true := by decide

theorem test_witness_DecodedBytesAreTheEncoding :
    decode referenceOpcodes [0x19, 0xFF, 0x00] = .instr (.lsp 0xFF) [0x00] := by decide

/-- One byte too few, and exactly enough. -/
theorem test_witness_OpcodeByteAloneFixesMnemonicAndLength :
    lookupOpcode referenceOpcodes 0x02 = some .neg ∧ ([] : List Byte).length + 1 < lengthOf .neg ∧
      lengthOf .neg ≤ [(0x00 : Byte)].length + 1 := by decide

theorem test_witness_OpcodeTableMapsMnemonicOrSentinel :
    referenceOpcodes.legal = true ∧ lookupOpcode referenceOpcodes 0x00 = none ∧
      stepsTo (start 32 16 0 [0x14]) (fun _ => true) := by decide

theorem test_witness_LegalMapsLeave231SentinelBytes : referenceOpcodes.legal = true := by decide

/-- The four byte offsets, and the two nearest bytes outside the word at 8. -/
theorem test_witness_WriteWordStoresLittleEndianBytes :
    Memory.wf [(3, 0x01#8), (8, 0xFF#8)] ∧ outsideWord 8 7 ∧ outsideWord 8 12 ∧ ¬ outsideWord 8 8 ∧
      ¬ outsideWord 8 11 := by
  unfold outsideWord
  decide

theorem test_witness_StepRunsTheDecodedInstruction :
    let s := start 32 16 30 [0x02, 0x04];
    s.run = .running ∧ 0 ≤ s.pc.toInt ∧ s.pc.toInt < s.cfg.ms.toInt ∧
      decode s.cfg.opcodes (s.mem.readBytes s.pc.toNat (min 6 (s.cfg.ms.toInt - s.pc.toInt).toNat)) =
        .instr (.neg 4) [] := by decide

theorem test_witness_StepRunsTheInstructionStoredAtPc :
    let s := start 32 16 30 [0x02, 0x03];
    s.cfg.opcodes.legal = true ∧ s.run = .running ∧ 0 ≤ s.pc.toInt ∧
      s.pc.toInt + lengthOf (Instr.neg 3).mnemonic ≤ s.cfg.ms.toInt ∧
      ∀ k, k < lengthOf (Instr.neg 3).mnemonic →
        (encode s.cfg.opcodes (.neg 3))[k]? = some (s.mem.read (s.pc.toNat + k)) := by decide

/-- pc = -1 and pc = MS, and pc = 0 in a machine with no memory. -/
theorem test_witness_PcOutOfRangeRaisesBadAccess :
    (start 32 16 (-1) []).run = .running ∧ (start 32 16 (-1) []).pc.toInt < 0 ∧
      (start 32 16 32 []).cfg.ms.toInt = (start 32 16 32 []).pc.toInt ∧
      (start 0 0 0 []).cfg.ms.toInt ≤ (start 0 0 0 []).pc.toInt := by decide

/-- The first and the last pc in range. -/
theorem test_witness_UnmappedOpcodeRaisesBadInstruction :
    ∀ s ∈ [start 32 16 0 [0x99], start 32 16 31 [0x99]], s.run = .running ∧ 0 ≤ s.pc.toInt ∧
      s.pc.toInt < s.cfg.ms.toInt ∧ lookupOpcode s.cfg.opcodes (s.mem.read s.pc.toNat) = none := by decide

theorem test_witness_LengthCheckRaisesBadAccess :
    (let s := start 32 16 31 [0x02];
      s.run = .running ∧ 0 ≤ s.pc.toInt ∧ s.pc.toInt < s.cfg.ms.toInt ∧
        lookupOpcode s.cfg.opcodes (s.mem.read s.pc.toNat) = some .neg ∧
        s.cfg.ms.toInt < s.pc.toInt + lengthOf .neg) ∧
      (cutOff 6).cfg.ms.toInt < (cutOff 6).pc.toInt + lengthOf (Instr.load 0 0).mnemonic ∧
      lengthOf .ret = 1 ∧ (fitting 1).pc.toInt < (fitting 1).cfg.ms.toInt := by decide

theorem test_witness_RegisterByteNamesARegisterOrFaults :
    regOf 3 = some 3 ∧ regOf 4 = none ∧
      (fitting 3).pc.toInt + lengthOf (Instr.add 3 4).mnemonic ≤ (fitting 3).cfg.ms.toInt ∧
      ∃ b ∈ (Instr.add 3 4).regBytes, 4 ≤ b.toNat := by decide

/-- pc = -1 and pc = MS; the first and last pc of an unmapped byte; a mapped byte one byte short. -/
theorem test_witness_HandlersEndInOneOfFourWaysAndFaultsArePrecise :
    (start 32 16 (-1) []).run = .running ∧ (start 32 16 (-1) []).pc.toInt < 0 ∧
      (start 32 16 32 []).run = .running ∧ (start 32 16 32 []).cfg.ms.toInt ≤ (start 32 16 32 []).pc.toInt ∧
      (∀ s ∈ [start 32 16 0 [0x99], start 32 16 31 [0x99]], s.run = .running ∧ 0 ≤ s.pc.toInt ∧
        s.pc.toInt < s.cfg.ms.toInt ∧ lookupOpcode s.cfg.opcodes (s.mem.read s.pc.toNat) = none) ∧
      let s := start 32 16 31 [0x02];
      s.run = .running ∧ 0 ≤ s.pc.toInt ∧ s.pc.toInt < s.cfg.ms.toInt ∧
        lookupOpcode s.cfg.opcodes (s.mem.read s.pc.toNat) = some .neg ∧
        s.cfg.ms.toInt + 1 = s.pc.toInt + lengthOf .neg := by decide

theorem test_witness_ExactlyTheRunningStatesHaveOneSuccessor :
    (fitting 1).run = .running ∧ ({ fitting 1 with run := .halted } : State).run = .halted ∧
      ({ fitting 1 with run := .undefined .divideByZero } : State).run = .undefined .divideByZero := by decide

/-- A clean end, and an end by a fault. -/
theorem test_witness_RunsEndCleanlyExactlyAtHalt :
    (start 32 16 31 [0x12]).inv ∧
      stepsTo (start 32 16 31 [0x12]) (fun t => decide t.cleanEnd) ∧ (start 32 16 31 [0x99]).inv ∧
      stepsTo (start 32 16 31 [0x99]) (fun t => decide ¬ t.cleanEnd) := by decide

theorem test_witness_FaultFlagsAreStickyAndUnread :
    let s := { start 32 16 0 [0x14] with flags := { Flags.clear with badAccess := true } };
    stepsTo s (fun _ => true) ∧ s.flags.fault .badAccess = true := by decide

/-- A CMP that completes, another instruction that completes, and a CMP that stops. -/
theorem test_witness_FlagsChangeOnlyByCmpAndByFaults :
    (fitting 3).run = .running ∧ runsTo (.cmp 0 1) (fitting 3) (fun t => t.run == .running) ∧
      runsTo (.add 0 1) (fitting 3) (fun t => t.run == .running) ∧ (Instr.add 0 1).mnemonic ≠ .cmp ∧
      runsTo (.cmp 0 4) (fitting 3) (fun t => t.run != .running) := by decide

theorem test_witness_OnlyDestinationRegistersChange :
    runsTo (.add 0 3) (fitting 3) (fun _ => true) ∧ ¬ namesReg (writesRegs (.add 0 3)) 0 := by
  unfold namesReg
  decide

theorem test_witness_UnreadRegistersHaveNoInfluence : ¬ namesReg (readsRegs (.rload 0 3)) 3 := by
  unfold namesReg
  decide

/-- A push and a pop that complete, and one that stops. -/
theorem test_witness_StackPointerMovesOnlyWithTheStack :
    (fitting 2).run = .running ∧ runsTo (.push 0) (fitting 2) (fun t => t.run == .running) ∧
      runsTo (.pop 0) { fitting 2 with sp := 28 } (fun t => t.run == .running) ∧
      runsTo (.pop 0) (fitting 2) (fun t => t.run != .running) := by decide

theorem test_witness_PcAdvancesByLengthOrGoesToTheTarget :
    (fitting 5).run = .running ∧ runsTo (.jmp (-1)) (fitting 5) (fun t => t.run == .running) ∧
      runsTo .halt (fitting 5) (fun t => t.run != .running) := by decide

theorem test_witness_StepNeverChangesTheConfiguration : stepsTo (start 32 16 31 [0x12]) (fun _ => true) := by decide

/-- One state per clause, and a byte just outside the words it stores. -/
theorem test_witness_OnlyTheStoredBytesChange :
    runsTo (.store 0 8) (fitting 6) (fun _ => true) ∧ outsideWord 8 12 ∧
      runsTo (.rstore 0 1) (fitting 3) (fun _ => true) ∧ regOf 1 = some 1 ∧
      outsideWord ((fitting 3).reg 1).toNat 4 ∧
      runsTo (.rstore 0 4) (fitting 3) (fun _ => true) ∧ regOf 4 = none ∧
      runsTo (.push 0) (fitting 2) (fun _ => true) ∧ outsideWord (fitting 2).pushAddr.toNat 27 ∧
      runsTo (.call 0) (fitting 5) (fun _ => true) ∧ outsideWord (fitting 5).pushAddr.toNat 32 ∧
      runsTo .pushAll (fitting 1) (fun _ => true) ∧
      outsideWord ((fitting 1).sp - 4#32).toNat 15 ∧ outsideWord ((fitting 1).sp - 8#32).toNat 15 ∧
      outsideWord ((fitting 1).sp - 12#32).toNat 15 ∧ outsideWord ((fitting 1).sp - 16#32).toNat 15 ∧
      (Instr.nop).mnemonic ∉ [.store, .rstore, .push, .call, .pushAll] ∧
      runsTo .nop (fitting 1) (fun _ => true) := by
  unfold outsideWord
  repeat' apply And.intro
  all_goals decide

theorem test_witness_OnlyACompletingIntEmits :
    runsTo (.int 1) { fitting 2 with sp := 28 } (fun t => t.run == .running) ∧
      runsTo (.int 1) (fitting 2) (fun t => t.run != .running) ∧
      runsTo .nop (fitting 1) (fun _ => true) := by decide

theorem test_witness_AddStoresTheWrappedSum :
    stopClauses 3 (.add 4 0) ∧ (3#8).toNat = (3 : Fin 4).val ∧ (0#8).toNat = (0 : Fin 4).val := by decide

theorem test_witness_NegStoresTheWrappedNegation :
    stopClauses 2 (.neg 4) ∧ (3#8).toNat = (3 : Fin 4).val ∧
      ((fitting 2).setReg 3 0x80000000#32).reg 3 = 0x80000000#32 := by decide

theorem test_witness_MulStoresTheLowHalfOfTheProduct :
    stopClauses 3 (.mul 4 0) ∧ (3#8).toNat = (3 : Fin 4).val ∧ (0#8).toNat = (0 : Fin 4).val := by decide

theorem test_witness_DivStoresTheTruncatedQuotient :
    stopClauses 3 (.div 4 0) ∧ (3#8).toNat = (3 : Fin 4).val ∧ (0#8).toNat = (0 : Fin 4).val ∧
      (fitting 3).reg 3 = 0#32 ∧ ((fitting 3).setReg 3 1).reg 3 ≠ 0#32 := by decide

theorem test_witness_ModStoresTheRemainderOfSourceByDestination :
    stopClauses 3 (.mod 0 4) ∧ (3#8).toNat = (3 : Fin 4).val ∧ (0#8).toNat = (0 : Fin 4).val ∧
      (fitting 3).reg 3 = 0#32 ∧ ((fitting 3).setReg 3 (-1)).reg 3 ≠ 0#32 := by decide

theorem test_witness_CmpSetsExactlyOneFlagBySignedCompare :
    stopClauses 3 (.cmp 0 4) ∧ (3#8).toNat = (3 : Fin 4).val ∧ (0#8).toNat = (0 : Fin 4).val ∧
      (fitting 3).run = .running ∧ runsTo (.cmp 0 4) (fitting 3) (fun t => t.run != .running) := by decide

/-- A target of -1 and a target of MS both lie outside [0, MS). -/
theorem test_witness_ConditionalJumpsFollowTheirFlag :
    lengthClauses 5 ∧ (fitting 5).run = .running ∧ ((-1 : Word).toInt < 0) ∧
      (fitting 5).cfg.ms.toInt ≤ (32 : Word).toInt := by decide

theorem test_witness_JmpGoesToItsTarget :
    lengthClauses 5 ∧ (fitting 5).run = .running ∧ ((-1 : Word).toInt < 0) ∧
      (fitting 5).cfg.ms.toInt ≤ (32 : Word).toInt := by decide

/-- 3 and 4 free bytes. -/
theorem test_witness_CallPushesTheReturnAddressAndJumps :
    lengthClauses 5 ∧ { fitting 5 with sp := 19 }.available = 3 ∧ { fitting 5 with sp := 20 }.available = 4 ∧
      { fitting 5 with sp := 20 }.run = .running ∧ ((-1 : Word).toInt < 0) := by decide

/-- 3 and 4 used bytes. -/
theorem test_witness_RetPopsPc :
    lengthClauses 1 ∧ { fitting 1 with sp := 29 }.occupied = 3 ∧ { fitting 1 with sp := 28 }.occupied = 4 ∧
      { fitting 1 with sp := 28 }.run = .running := by decide

/-- A word at the very top of the stack, 4 free bytes, and the last target in range. -/
theorem test_witness_RetUndoesCall :
    let s := { fitting 5 with sp := 20 };
    s.mem.wf ∧ 0 ≤ s.cfg.sl.toInt ∧ s.sp.toInt ≤ s.cfg.ms.toInt ∧ s.pc.toInt + 5 ≤ s.cfg.ms.toInt ∧
      4 ≤ s.sp.toInt - s.cfg.sl.toInt ∧ (31 : Word).toInt < s.cfg.ms.toInt := by decide

/-- The first and last good data address, and the bad ones next to them. -/
abbrev dataClauses (s : State) : Prop :=
  (0 ≤ (0 : Word).toInt ∧ (28 : Word).toInt + 4 = s.cfg.ms.toInt) ∧ (-1 : Word).toInt < 0 ∧
    s.cfg.ms.toInt < (29 : Word).toInt + 4

theorem test_witness_LoadReadsTheWordAtItsAddress :
    stopClauses 6 (.load 4 0) ∧ (3#8).toNat = (3 : Fin 4).val ∧ dataClauses (fitting 6) := by decide

theorem test_witness_StoreWritesTheWordAtItsAddress :
    stopClauses 6 (.store 4 0) ∧ (3#8).toNat = (3 : Fin 4).val ∧ dataClauses (fitting 6) := by decide

theorem test_witness_ConstLoadsItsImmediate :
    stopClauses 6 (.const 4 0) ∧ (3#8).toNat = (3 : Fin 4).val := by decide

theorem test_witness_RloadReadsTheWordItsFirstRegisterAddresses :
    stopClauses 3 (.rload 0 4) ∧ (3#8).toNat = (3 : Fin 4).val ∧ dataClauses (fitting 3) ∧
      ((fitting 3).setReg 3 28).reg 3 = 28 ∧ ((fitting 3).setReg 3 29).reg 3 = 29 := by decide

theorem test_witness_RstoreWritesTheWordItsSecondRegisterAddresses :
    stopClauses 3 (.rstore 4 0) ∧ (3#8).toNat = (3 : Fin 4).val ∧ dataClauses (fitting 3) ∧
      ((fitting 3).setReg 3 28).reg 3 = 28 ∧ ((fitting 3).setReg 3 29).reg 3 = 29 := by decide

theorem test_witness_HaltStopsWithNoFault : lengthClauses 1 := by decide

/-- Numbers 0 and 3; an empty and a non-empty stack; for INT 2 the string "Hi", a negative address, and a string
whose bytes up to MS hold no 0. -/
theorem test_witness_IntPopsAWordAndEmitsItsEvent :
    lengthClauses 2 ∧ ((0#8 ≠ 1#8 ∧ 0#8 ≠ 2#8) ∧ (3#8 ≠ 1#8 ∧ 3#8 ≠ 2#8)) ∧
      (fitting 2).cfg.ms.toInt ≤ (fitting 2).sp.toInt ∧
      { fitting 2 with sp := 31 }.sp.toInt < (fitting 2).cfg.ms.toInt ∧
      (let s := { start 32 16 0 [0x13, 0x02] 20 [0x48, 0x69, 0, 0, 0, 0, 0, 0, 0x14] with sp := 28 };
      s.pc.toInt + 2 ≤ s.cfg.ms.toInt ∧ s.sp.toInt < s.cfg.ms.toInt ∧
        0 ≤ (s.mem.readWord s.sp.toNat).toInt ∧
        (s.mem.readWord s.sp.toNat).toInt + ([0x48#8, 0x69#8].length : Int) < s.cfg.ms.toInt ∧
        (∀ b ∈ [0x48#8, 0x69#8], b ≠ 0#8) ∧
        (∀ k, k < [0x48#8, 0x69#8].length → [0x48#8, 0x69#8][k]? =
          some (s.mem.read ((s.mem.readWord s.sp.toNat).toNat + k))) ∧
        s.mem.read ((s.mem.readWord s.sp.toNat).toNat + [0x48#8, 0x69#8].length) = 0#8) ∧
      (let s := { start 32 16 0 [] 28 [0xFF, 0xFF, 0xFF, 0xFF] with sp := 28 };
      s.sp.toInt < s.cfg.ms.toInt ∧ (s.mem.readWord s.sp.toNat).toInt < 0) ∧
      let s := { start 32 16 0 [] 24 [0x1F, 0, 0, 0, 0, 0, 0, 0x44] with sp := 24 };
      s.sp.toInt < s.cfg.ms.toInt ∧ (s.mem.readWord s.sp.toNat).toNat = 31 ∧ s.mem.read 31 ≠ 0#8 ∧
        s.cfg.ms.toInt = 32 := by decide

theorem test_witness_NopOnlyAdvancesPc : lengthClauses 1 := by decide

theorem test_witness_PushStoresTheRegisterBelowTheTop :
    stopClauses 2 (.push 4) ∧ (3#8).toNat = (3 : Fin 4).val ∧ { fitting 2 with sp := 19 }.available = 3 ∧
      { fitting 2 with sp := 20 }.available = 4 := by decide

theorem test_witness_PushAllStoresRegistersInDescendingOrder :
    lengthClauses 1 ∧ { fitting 1 with sp := 31 }.available = 15 ∧ (fitting 1).available = 16 := by decide

theorem test_witness_PopLoadsTheTopWord :
    stopClauses 2 (.pop 4) ∧ (3#8).toNat = (3 : Fin 4).val ∧ { fitting 2 with sp := 29 }.occupied = 3 ∧
      { fitting 2 with sp := 28 }.occupied = 4 := by decide

theorem test_witness_PopAllLoadsRegistersInAscendingOrder :
    lengthClauses 1 ∧ { fitting 1 with sp := 17 }.occupied = 15 ∧ { fitting 1 with sp := 16 }.occupied = 16 := by
  decide

theorem test_witness_LspReadsTheStackPointer : stopClauses 2 (.lsp 4) ∧ (3#8).toNat = (3 : Fin 4).val := by decide

theorem test_witness_PopAllUndoesPushAll :
    let s := fitting 2;
    s.mem.wf ∧ 0 ≤ s.cfg.sl.toInt ∧ s.sp.toInt ≤ s.cfg.ms.toInt ∧ 16 ≤ s.sp.toInt - s.cfg.sl.toInt ∧
      s.pc.toInt + 2 ≤ s.cfg.ms.toInt := by decide

/-- Two pushes and two pops that use all the free bytes and all the bytes up to MS. -/
theorem test_witness_PushesThenPopsAreLifo :
    let s := { fitting 8 with sp := 24 };
    let rs : List (Fin 4) := [0, 1];
    let qs : List (Fin 4) := [2, 3];
    rs.length = qs.length ∧ s.mem.wf ∧ 0 ≤ s.cfg.sl.toInt ∧ s.sp.toInt ≤ s.cfg.ms.toInt ∧
      4 * (rs.length : Int) ≤ s.sp.toInt - s.cfg.sl.toInt ∧
      s.pc.toInt + 4 * (rs.length : Int) ≤ s.cfg.ms.toInt := by decide

/-- The last byte below SL, and a PUSH into the last slot above it. -/
theorem test_witness_StackInstructionsNeverWriteBelowTheLimit :
    let s := { fitting 2 with sp := 20 };
    (Instr.push 0).mnemonic ∈ [.push, .pushAll, .pop, .popAll, .lsp, .call, .ret, .int] ∧
      0 ≤ s.cfg.sl.toInt ∧ ((15 : Nat) : Int) < s.cfg.sl.toInt ∧
      runsTo (.push 0) s (fun t => t.sp == 16) := by decide

theorem test_witness_InitialisationRoundsRequestsUpToFour : 0 ≤ 2 ^ 31 - 4 ∧ 2 ^ 31 - 4 ≤ 2 ^ 31 - 4 := by decide

/-- An image that fills all of a small memory. -/
theorem test_witness_LoadingPlacesTheImageAtAddressZero :
    (State.init (config 4 4)).mem.wf ∧
      ([1#8, 2#8, 3#8, 4#8].length : Int) ≤ (State.init (config 4 4)).cfg.ms.toInt := by decide

/-- The smallest launch, the largest sizes, and an image that fills memory. -/
theorem test_witness_LegalLaunchesMeetTheInvariant :
    legalLaunch 0 0 referenceOpcodes [] = true ∧
      legalLaunch (2 ^ 31 - 4) (2 ^ 31 - 4) referenceOpcodes [] = true ∧
      legalLaunch 1 0 referenceOpcodes [0x12, 0x14, 0x14, 0x14] = true := by decide

theorem test_witness_StepKeepsTheInvariant :
    (start 32 16 0 [0x15, 0x03]).inv ∧ stepsTo (start 32 16 0 [0x15, 0x03]) (fun _ => true) := by decide

end Sys2Proof.Tests
end

section
/-!
PROOFS. What a completing handler and a step leave unchanged.
-/

namespace Sys2Proof.Machine

/-- sp after an instruction that completes (10_state.md R29; R181 for INT). -/
def spAfter (m : Mnemonic) (sp : Word) : Word :=
  match m with
  | .push | .call => sp - 4#32
  | .pushAll => sp - 16#32
  | .pop | .ret | .int => sp + 4#32
  | .popAll => sp + 16#32
  | _ => sp

/-- What a completing instruction does to pc, sp, the flags and the registers (R22, R25, R29, R32). -/
structure CompletionFrame (i : Instr) (s t : State) : Prop where
  pc : t.pc = (transferTarget i s).getD (s.pc + BitVec.ofNat 32 (lengthOf i.mnemonic))
  sp : t.sp = spAfter i.mnemonic s.sp
  flags : i.mnemonic ≠ .cmp → t.flags = s.flags
  fault : ∀ f, t.flags.fault f = s.flags.fault f
  reg : ∀ r, ¬ namesReg (writesRegs i) r → t.reg r = s.reg r

/-- A write to the register a byte names leaves the registers that byte does not name. -/
theorem reg_setReg_of_not_named {b : Byte} {d r : Fin 4} (s : State) (v : Word) (hd : regOf b = some d)
    (hr : ¬ namesReg [b] r) : (s.setReg d v).reg r = s.reg r := by
  have hne : r ≠ d := fun e => hr ⟨b, by simp, by rw [e]; exact regOf_eq_some.mp hd⟩
  rw [State.reg_setReg, if_neg hne]

/-- The four register numbers name every register. -/
theorem namesReg_all (r : Fin 4) : namesReg [0#8, 1#8, 2#8, 3#8] r := by
  unfold namesReg
  revert r
  decide

/-- A conditional jump that completes keeps everything but pc, and pc goes to the target exactly when the flag
is set. -/
theorem completionFrame_jumpWhen {i : Instr} {s : State} {taken : Bool} {target : Word}
    (hm : spAfter i.mnemonic s.sp = s.sp) (hl : lengthOf i.mnemonic = 5)
    (ht : transferTarget i s = if taken then some target else none) :
    CompletionFrame i s (if taken then s.jump target else s.advance 5) := by
  cases taken
  · exact ⟨by rw [ht, hl]; rfl, hm.symm, fun _ => rfl, fun _ => rfl, fun _ _ => rfl⟩
  · exact ⟨by rw [ht]; rfl, hm.symm, fun _ => rfl, fun _ => rfl, fun _ _ => rfl⟩

/-- Every completing instruction keeps to its frame. -/
theorem completes_frame {i : Instr} {s t : State} (h : completes i s t) : CompletionFrame i s t := by
  cases i <;> simp only [completes] at h
  case add | mul =>
    obtain ⟨a, d, -, hd, rfl⟩ := h
    exact ⟨rfl, rfl, fun _ => rfl, fun _ => rfl, fun _ => reg_setReg_of_not_named s _ hd⟩
  case div | mod | rload =>
    obtain ⟨a, d, -, hd, -, rfl⟩ := h
    exact ⟨rfl, rfl, fun _ => rfl, fun _ => rfl, fun _ => reg_setReg_of_not_named s _ hd⟩
  case neg | const | lsp =>
    obtain ⟨d, hd, rfl⟩ := h
    exact ⟨rfl, rfl, fun _ => rfl, fun _ => rfl, fun _ => reg_setReg_of_not_named s _ hd⟩
  case load | pop =>
    obtain ⟨d, hd, -, rfl⟩ := h
    exact ⟨rfl, rfl, fun _ => rfl, fun _ => rfl, fun _ => reg_setReg_of_not_named s _ hd⟩
  case cmp =>
    obtain ⟨a, b, -, -, rfl⟩ := h
    exact ⟨rfl, rfl, fun hne => absurd rfl hne, Flags.fault_compare _ _ _, fun _ _ => rfl⟩
  case ja | je | jb =>
    subst h
    exact completionFrame_jumpWhen rfl rfl rfl
  case jmp | nop =>
    subst h
    exact ⟨rfl, rfl, fun _ => rfl, fun _ => rfl, fun _ _ => rfl⟩
  case call | ret =>
    obtain ⟨-, rfl⟩ := h
    exact ⟨rfl, rfl, fun _ => rfl, fun _ => rfl, fun _ _ => rfl⟩
  case pushAll =>
    obtain ⟨-, rfl⟩ := h
    rw [pushAll_eq]
    exact ⟨rfl, rfl, fun _ => rfl, fun _ => rfl, fun _ _ => rfl⟩
  case popAll =>
    obtain ⟨-, rfl⟩ := h
    exact ⟨rfl, rfl, fun _ => rfl, fun _ => rfl, fun r hr => absurd (namesReg_all r) hr⟩
  case store | push =>
    obtain ⟨d, -, -, rfl⟩ := h
    exact ⟨rfl, rfl, fun _ => rfl, fun _ => rfl, fun _ _ => rfl⟩
  case rstore =>
    obtain ⟨d, a, -, -, -, rfl⟩ := h
    exact ⟨rfl, rfl, fun _ => rfl, fun _ => rfl, fun _ _ => rfl⟩
  case int =>
    obtain ⟨-, e, rfl, -⟩ := h
    exact ⟨rfl, rfl, fun _ => rfl, fun _ => rfl, fun _ _ => rfl⟩

/-- A handler that runs in a running state and leaves it running has completed. -/
theorem completes_of_running {i : Instr} {s t : State} (h : exec i s = .next t) (ht : t.run = .running) :
    completes i s t := by
  obtain ⟨f, rfl⟩ | rfl | ⟨-, rfl⟩ | ⟨-, hc⟩ := exec_next_cases h
  · cases ht
  · cases ht
  · cases ht
  · exact hc

/-- A handler that ends the run raised a fault, stopped Undefined, or is HALT. -/
theorem stopped_cases {i : Instr} {s t : State} (hs : s.run = .running) (h : exec i s = .next t)
    (ht : t.run ≠ .running) :
    (∃ f, t = s.raise f) ∨ t = s.raiseUndefined .divideByZero ∨
      (i = .halt ∧ t = (s.advance s.cfg.haltPcAdvance.val).halt) := by
  obtain hf | hu | hh | ⟨-, hc⟩ := exec_next_cases h
  · exact .inl hf
  · exact .inr (.inl hu)
  · exact .inr (.inr hh)
  · exact absurd ((completes_run_cfg hc).1.trans hs) ht

/-- There is a cycle only while the run state is Running (R111). -/
theorem fetch_of_not_running {s : State} (h : s.run ≠ .running) : ∃ f, fetch s = .stop f := by
  unfold fetch
  cases hr : s.run with
  | running => exact absurd hr h
  | halted => exact ⟨_, rfl⟩
  | undefined r => exact ⟨_, rfl⟩

/-- Everything a step can do: it starts in a running state, and either the fetch raises a fault or a handler
runs. -/
theorem step_next_cases {s t : State} (h : step s = .next t) :
    s.run = .running ∧ ((∃ f, t = s.raise f) ∨ ∃ i, exec i s = .next t) := by
  unfold step at h
  refine ⟨?_, ?_⟩
  · by_contra hr
    obtain ⟨f, hf⟩ := fetch_of_not_running hr
    rw [hf] at h
    cases h
  · split at h
    · exact .inr ⟨_, h⟩
    · cases h
      exact .inl ⟨_, rfl⟩
    · cases h

/-- No handler writes the configuration (R37). -/
theorem exec_cfg {i : Instr} {s t : State} (h : exec i s = .next t) : t.cfg = s.cfg := by
  obtain ⟨f, rfl⟩ | rfl | ⟨-, rfl⟩ | ⟨-, hc⟩ := exec_next_cases h
  · rfl
  · rfl
  · rfl
  · exact (completes_run_cfg hc).2

/-- No handler clears a fault flag (R31). -/
theorem exec_keeps_fault {i : Instr} {s t : State} {f : FaultFlag} (h : exec i s = .next t)
    (hf : s.flags.fault f = true) : t.flags.fault f = true := by
  obtain ⟨g, rfl⟩ | rfl | ⟨-, rfl⟩ | ⟨-, hc⟩ := exec_next_cases h
  · simp [hf]
  · exact hf
  · exact hf
  · rw [(completes_frame hc).fault, hf]

/-- HALT inside memory ends the run and adds HALT_PC_ADVANCE to pc; past MS it faults (R180, R104). -/
theorem exec_halt (s : State) : exec .halt s =
    if s.pc.toInt < s.cfg.ms.toInt then .next (s.advance s.cfg.haltPcAdvance.val).halt
    else .next (s.raise .badAccess) := rfl

end Sys2Proof.Machine

open Sys2Proof Sys2Proof.Machine

/-- Settles O25: neither a fault at the fetch nor a handler writes the configuration. -/
theorem stepNeverChangesTheConfiguration : Obligations.StepNeverChangesTheConfiguration := by
  intro s t h
  obtain ⟨-, ⟨f, rfl⟩ | ⟨i, hi⟩⟩ := step_next_cases h
  · rfl
  · exact exec_cfg hi

/-- Settles O21: a handler that stops writes no register, one that completes only its destination. -/
theorem onlyDestinationRegistersChange : Obligations.OnlyDestinationRegistersChange := by
  intro i s t r h hr
  obtain ⟨f, rfl⟩ | rfl | ⟨-, rfl⟩ | ⟨-, hc⟩ := exec_next_cases h
  · rfl
  · rfl
  · rfl
  · exact (completes_frame hc).reg r hr

/-- Settles O19, by the frame of a completing handler and the three ways to stop. -/
theorem flagsChangeOnlyByCmpAndByFaults : Obligations.FlagsChangeOnlyByCmpAndByFaults := by
  intro i s t hs h
  refine ⟨fun ht => (completes_frame (completes_of_running h ht)).flags,
    fun ht => (completes_frame (completes_of_running h ht)).fault, fun ht => ?_⟩
  obtain ⟨f, rfl⟩ | rfl | ⟨-, rfl⟩ := stopped_cases hs h ht
  · simp
  · exact ⟨rfl, rfl, rfl⟩
  · exact ⟨rfl, rfl, rfl⟩

/-- Settles O23: no way to stop moves sp, and a completing handler moves it as its frame says. -/
theorem stackPointerMovesOnlyWithTheStack : Obligations.StackPointerMovesOnlyWithTheStack := by
  intro i s t hs h
  refine ⟨fun ht => ?_, fun ht => ?_⟩
  · obtain ⟨f, rfl⟩ | rfl | ⟨-, rfl⟩ := stopped_cases hs h ht
    · rfl
    · rfl
    · rfl
  · rw [(completes_frame (completes_of_running h ht)).sp]
    cases i <;> rfl

/-- Settles O24. HALT is taken apart on its own, since it alone stops and moves pc. -/
theorem pcAdvancesByLengthOrGoesToTheTarget : Obligations.PcAdvancesByLengthOrGoesToTheTarget := by
  intro i s t hs h
  refine ⟨fun ht => (completes_frame (completes_of_running h ht)).pc, fun ht => ?_⟩
  by_cases hi : i = .halt
  · subst hi
    rw [exec_halt] at h
    by_cases hpc : s.pc.toInt < s.cfg.ms.toInt
    · rw [if_pos hpc] at h
      cases h
      rw [if_pos ⟨rfl, hpc⟩]
      rfl
    · rw [if_neg hpc] at h
      cases h
      rw [if_neg fun hh => hpc hh.2]
      rfl
  · rw [if_neg fun hh => hi hh.1]
    obtain ⟨f, rfl⟩ | rfl | ⟨rfl, -⟩ := stopped_cases hs h ht
    · rfl
    · rfl
    · exact absurd rfl hi

/-- Settles O20: each bit of the concatenation is the one flag at its place. -/
theorem flagsPackIntoTheirBits : Obligations.FlagsPackIntoTheirBits := by
  intro f
  simp only [Flags.pack, BitVec.getLsbD_append, BitVec.getLsbD_ofBool]
  simp
end

section
/-!
PROOFS. The invariant of the core (10_state.md R38): one rule per operation on the state.
-/

namespace Sys2Proof.Machine

/-- The sizes of a legal configuration (R38). -/
theorem Config.legal_sizes {c : Config} (h : c.legal = true) :
    0 ≤ c.ms.toInt ∧ c.ms.toInt % 4 = 0 ∧ 0 ≤ c.sl.toInt ∧ c.sl.toInt % 4 = 0 := by
  simp only [Config.legal, Bool.and_eq_true, decide_eq_true_eq] at h
  exact h.1

/-- No fault flag is set exactly when each one reads false. -/
theorem Flags.noFault_iff {f : Flags} : f.noFault = true ↔ ∀ g, f.fault g = false := by
  simp only [noFault, Bool.not_eq_true', Bool.or_eq_false_iff]
  refine ⟨fun ⟨⟨⟨⟨hi, hu⟩, ho⟩, hr⟩, ha⟩ g => ?_, fun h =>
    ⟨⟨⟨⟨h .badInstruction, h .stackUnderflow⟩, h .stackOverflow⟩, h .invalidRegisterIndex⟩, h .badAccess⟩⟩
  cases g <;> assumption

/-- A signed comparison sets exactly one flag, so never two (R32). -/
theorem Flags.comparisonExclusive_compare (f : Flags) (a b : Word) :
    (f.compare a b).comparisonExclusive := by
  simp only [comparisonExclusive, compare, Bool.and_eq_false_iff, decide_eq_false_iff_not]
  omega

/-- A fault leaves the comparison flags. -/
theorem Flags.comparisonExclusive_setFault {f : Flags} (h : f.comparisonExclusive) (a : FaultFlag) :
    (f.setFault a).comparisonExclusive := by
  simpa [comparisonExclusive] using h

namespace State

/-! pc and the registers do not occur in the invariant. -/

theorem inv_setReg {s : State} (hs : s.inv) (r : Fin 4) (v : Word) : (s.setReg r v).inv := hs
theorem inv_advance {s : State} (hs : s.inv) (n : Nat) : (s.advance n).inv := hs
theorem inv_jump {s : State} (hs : s.inv) (target : Word) : (s.jump target).inv := hs

/-- In a running core that meets the invariant no fault flag is set (R223). -/
theorem noFault_of_running {s : State} (hs : s.inv) (hr : s.run = .running) : s.flags.noFault = true := by
  obtain ⟨-, -, -, -, -, ⟨hnf, -⟩, -⟩ := hs
  exact hnf.resolve_left (by simp [hr])

/-- The first fault of a run sets one fault flag and halts. -/
theorem inv_raise {s : State} (hs : s.inv) (hr : s.run = .running) (f : FaultFlag) : (s.raise f).inv := by
  have hnf := Flags.noFault_iff.mp (noFault_of_running hs hr)
  obtain ⟨hcfg, hwf, hrange, hsp, hcmp, -, hout⟩ := hs
  refine ⟨hcfg, hwf, hrange, hsp, Flags.comparisonExclusive_setFault hcmp f,
    ⟨.inl rfl, fun g _ g' _ hg hg' => ?_⟩, hout⟩
  have only_f : ∀ k, (s.raise f).flags.fault k = true → k = f := fun k hk => by simpa [hnf] using hk
  rw [only_f g hg, only_f g' hg']

/-- Ending the run without a fault keeps the invariant. -/
theorem inv_setRun {s : State} (hs : s.inv) (hr : s.run = .running) (r : RunState) :
    { s with run := r }.inv := by
  have hnf := noFault_of_running hs hr
  obtain ⟨hcfg, hwf, hrange, hsp, hcmp, ⟨-, hone⟩, hout⟩ := hs
  exact ⟨hcfg, hwf, hrange, hsp, hcmp, ⟨.inr hnf, hone⟩, hout⟩

/-- CMP keeps the invariant. -/
theorem inv_compare {s : State} (hs : s.inv) (a b : Word) :
    { s with flags := s.flags.compare a b }.inv := by
  obtain ⟨hcfg, hwf, hrange, hsp, -, ⟨hnf, hone⟩, hout⟩ := hs
  refine ⟨hcfg, hwf, hrange, hsp, Flags.comparisonExclusive_compare _ a b, ⟨hnf, ?_⟩, hout⟩
  simpa only [Flags.fault_compare] using hone

/-- Storing a word that lies inside memory keeps the invariant (R50, R160). -/
theorem inv_writeWord {s : State} (hs : s.inv) {ea : Word} (hea : s.dataOk ea) (v : Word) :
    { s with mem := s.mem.writeWord ea.toNat v }.inv := by
  obtain ⟨hcfg, hwf, hrange, hrest⟩ := hs
  refine ⟨hcfg, Memory.wf_writeWord hwf _ v, fun c hc => ?_, hrest⟩
  obtain ⟨hlow, hhigh⟩ := hea
  have haddr := toNat_of_nonneg hlow
  obtain hc | ⟨-, hlt⟩ := Memory.mem_writeWord hc
  · exact hrange c hc
  · dsimp only
    omega

/-- sp may move to any multiple of 4 between min(SL, MS) and MS (R30). -/
theorem inv_setSp {s : State} (hs : s.inv) {p : Word} (hp : { s with sp := p }.spInRange) :
    { s with sp := p }.inv := by
  obtain ⟨hcfg, hwf, hrange, -, hrest⟩ := hs
  exact ⟨hcfg, hwf, hrange, hp, hrest⟩

/-- With 4 free bytes the next push stores inside memory. -/
theorem dataOk_pushAddr {s : State} (hs : s.inv) (h : 4 ≤ s.available) : s.dataOk s.pushAddr := by
  obtain ⟨hcfg, -, -, ⟨-, -, hhigh⟩, -⟩ := hs
  obtain ⟨-, -, hsl, -⟩ := Config.legal_sizes hcfg
  have haddr := pushAddr_toInt h
  unfold available at h
  constructor <;> omega

/-- A push with 4 free bytes keeps the invariant. -/
theorem inv_push {s : State} (hs : s.inv) (h : 4 ≤ s.available) (v : Word) : (s.push v).inv := by
  have hsp : { s with sp := s.pushAddr }.spInRange := by
    obtain ⟨-, -, -, ⟨hmod, hlow, hhigh⟩, -⟩ := hs
    have haddr := pushAddr_toInt h
    unfold available at h
    refine ⟨?_, ?_, ?_⟩ <;> dsimp only <;> omega
  exact inv_setSp (inv_writeWord hs (dataOk_pushAddr hs h) v) hsp

/-- A push uses 4 of the free bytes. -/
theorem available_push {s : State} (h : 4 ≤ s.available) (v : Word) :
    (s.push v).available = s.available - 4 := by
  have haddr := pushAddr_toInt h
  simp only [available, push_sp, push_cfg] at *
  omega

/-- Four pushes with 16 free bytes keep the invariant. -/
theorem inv_pushAll {s : State} (hs : s.inv) (h : 16 ≤ s.available) : s.pushAll.inv := by
  have h1 := available_push (by omega : 4 ≤ s.available) (s.reg 0)
  have h2 := available_push (by omega : 4 ≤ (s.push (s.reg 0)).available) (s.reg 1)
  have h3 := available_push (by omega : 4 ≤ ((s.push (s.reg 0)).push (s.reg 1)).available) (s.reg 2)
  exact inv_push (inv_push (inv_push (inv_push hs (by omega) _) (by omega) _) (by omega) _) (by omega) _

/-- With `n` used bytes sp moves up by `n` without wrapping. -/
theorem sp_add_toInt {s : State} {n : Nat} (hn : n ≤ 16) (h : n ≤ s.occupied) :
    (s.sp + BitVec.ofNat 32 n).toInt = s.sp.toInt + n := by
  unfold occupied at h
  have hlow := BitVec.le_toInt s.sp
  have hhigh := BitVec.toInt_lt (x := s.cfg.ms)
  have hval : (BitVec.ofNat 32 n).toInt = n := by
    interval_cases n <;> rfl
  rw [BitVec.toInt_add, hval, Int.bmod_eq_of_le] <;> omega

/-- Taking `n` used bytes off the stack, a multiple of 4, keeps the invariant. -/
theorem inv_popped {s : State} (hs : s.inv) {n : Nat} (hn : n ≤ 16) (h4 : n % 4 = 0) (h : n ≤ s.occupied) :
    { s with sp := s.sp + BitVec.ofNat 32 n }.inv := by
  refine inv_setSp hs ?_
  obtain ⟨-, -, -, ⟨hmod, hlow, hhigh⟩, -⟩ := hs
  have hnew := sp_add_toInt hn h
  unfold occupied at h
  refine ⟨?_, ?_, ?_⟩ <;> dsimp only <;> omega

/-- Appending a well-formed event keeps the invariant (R35). -/
theorem inv_emit {s : State} (hs : s.inv) {e : Event} (he : e.wf = true) : (s.emit e).inv := by
  obtain ⟨hcfg, hwf, hrange, hsp, hcmp, hfault, hout⟩ := hs
  refine ⟨hcfg, hwf, hrange, hsp, hcmp, hfault, ?_⟩
  rw [emit_out, List.all_append, hout]
  simpa using he

/-- A string read from memory makes a well-formed event (R182). -/
theorem wf_str_of_cstring {s : State} {v : Word} {str : List Byte} (h : s.cstring v = some str) :
    Event.wf (.str str) = true := by
  unfold cstring at h
  split at h
  · cases h
  · simpa [Event.wf] using scanString_nonzero h

/-- On a core that meets the invariant a stack that is not empty holds a word. -/
theorem occupied_of_lt {s : State} (hs : s.inv) (h : s.sp.toInt < s.cfg.ms.toInt) : 4 ≤ s.occupied := by
  obtain ⟨hcfg, -, -, ⟨hmod, -, -⟩, -⟩ := hs
  obtain ⟨-, hms, -, -⟩ := Config.legal_sizes hcfg
  unfold occupied
  omega

end State

open State in
/-- An instruction that completes keeps the invariant. -/
theorem inv_completes {i : Instr} {s t : State} (hs : s.inv) (h : completes i s t) : t.inv := by
  cases i <;> simp only [completes] at h
  case add | mul =>
    obtain ⟨a, d, -, -, rfl⟩ := h
    exact inv_advance (inv_setReg hs _ _) _
  case div | mod | rload =>
    obtain ⟨a, d, -, -, -, rfl⟩ := h
    exact inv_advance (inv_setReg hs _ _) _
  case neg | const | lsp =>
    obtain ⟨d, -, rfl⟩ := h
    exact inv_advance (inv_setReg hs _ _) _
  case load =>
    obtain ⟨d, -, -, rfl⟩ := h
    exact inv_advance (inv_setReg hs _ _) _
  case cmp =>
    obtain ⟨a, b, -, -, rfl⟩ := h
    exact inv_advance (inv_compare hs _ _) _
  case ja | je | jb =>
    subst h
    split
    · exact inv_jump hs _
    · exact inv_advance hs _
  case jmp =>
    subst h
    exact inv_jump hs _
  case nop =>
    subst h
    exact inv_advance hs _
  case store =>
    obtain ⟨d, -, hea, rfl⟩ := h
    exact inv_advance (inv_writeWord hs hea _) _
  case rstore =>
    obtain ⟨d, a, -, -, hea, rfl⟩ := h
    exact inv_advance (inv_writeWord hs hea _) _
  case call =>
    obtain ⟨hfree, rfl⟩ := h
    exact inv_jump (inv_push hs hfree _) _
  case push =>
    obtain ⟨d, -, hfree, rfl⟩ := h
    exact inv_advance (inv_push hs hfree _) _
  case pushAll =>
    obtain ⟨hfree, rfl⟩ := h
    exact inv_advance (inv_pushAll hs hfree) _
  case ret =>
    obtain ⟨hused, rfl⟩ := h
    exact inv_popped (n := 4) hs (by decide) rfl hused
  case pop =>
    obtain ⟨d, -, hused, rfl⟩ := h
    exact inv_popped (n := 4) hs (by decide) rfl hused
  case popAll =>
    obtain ⟨hused, rfl⟩ := h
    exact inv_popped (n := 16) hs (by decide) rfl hused
  case int =>
    obtain ⟨hlt, e, rfl, he⟩ := h
    have hwf : e.wf = true := by
      obtain ⟨-, rfl⟩ | ⟨-, str, hstr, rfl⟩ := he
      · rfl
      · exact wf_str_of_cstring hstr
    exact inv_emit (inv_popped (n := 4) hs (by decide) rfl (occupied_of_lt hs hlt)) hwf

/-- A handler that runs in a running core keeps the invariant. -/
theorem inv_exec {i : Instr} {s t : State} (hs : s.inv) (hr : s.run = .running) (h : exec i s = .next t) :
    t.inv := by
  obtain ⟨f, rfl⟩ | rfl | ⟨-, rfl⟩ | ⟨-, hc⟩ := exec_next_cases h
  · exact State.inv_raise hs hr f
  · exact State.inv_setRun hs hr _
  · exact State.inv_setRun hs hr .halted
  · exact inv_completes hs hc

/-! ### Launches -/

/-- Every cell after storing a list of bytes is an old cell or one of the written ones. -/
theorem Memory.mem_writeBytes {m : Memory} {a : Nat} {bs : List Byte} {c : Host.Cell}
    (h : c ∈ m.writeBytes a bs) : c ∈ m ∨ a ≤ c.1 ∧ c.1 < a + bs.length := by
  induction bs generalizing m a with
  | nil => exact .inl h
  | cons b bs ih =>
    rw [List.length_cons]
    obtain h | ⟨hlow, hhigh⟩ := ih h
    · obtain h | ⟨rfl, -⟩ := mem_write h
      · exact .inl h
      · exact .inr (by dsimp only; omega)
    · exact .inr (by omega)

/-- Placing bytes, clipped at MS, keeps the invariant. -/
theorem inv_placeBytes {s : State} (hs : s.inv) (a : Nat) (bs : List Byte) : (placeBytes s a bs).inv := by
  obtain ⟨hcfg, hwf, hrange, hrest⟩ := hs
  refine ⟨hcfg, Memory.wf_writeBytes hwf _ _, fun c hc => ?_, hrest⟩
  obtain hc | ⟨hlow, hhigh⟩ := Memory.mem_writeBytes hc
  · exact hrange c hc
  · rw [List.length_take] at hhigh
    dsimp only [placeBytes]
    omega

/-- A legal request, rounded up to a multiple of 4, is its own signed word (R9, R250). -/
theorem toInt_ceil4 {n : Nat} (h : legalRequest n = true) :
    (BitVec.ofNat 32 (ceil4 n)).toInt = ceil4 n ∧ ceil4 n % 4 = 0 := by
  have hn : n ≤ 2 ^ 31 - 4 := of_decide_eq_true h
  have hc : ceil4 n ≤ 2 ^ 31 - 4 := by unfold ceil4; omega
  refine ⟨?_, by unfold ceil4; omega⟩
  rw [BitVec.toInt_ofNat', Int.bmod_eq_of_le] <;> omega

/-- A launch with legal requests has a legal configuration. -/
theorem launchConfig_legal {reqMem reqLimit : Nat} {ops : OpcodeMap} (hm : legalRequest reqMem = true)
    (hl : legalRequest reqLimit = true) (ho : ops.legal = true) (adv : Fin 2) :
    (launchConfig reqMem reqLimit ops adv).legal = true := by
  obtain ⟨hms, hms4⟩ := toInt_ceil4 hm
  obtain ⟨hsl, hsl4⟩ := toInt_ceil4 hl
  simp only [Config.legal, launchConfig, ho, hms, hsl, Bool.and_true, decide_eq_true_eq]
  omega

/-- Initialisation with a legal configuration gives a state that meets the invariant (R251). -/
theorem inv_init {c : Config} (hc : c.legal = true) : (State.init c).inv := by
  obtain ⟨-, hms, -, -⟩ := Config.legal_sizes hc
  refine ⟨hc, ⟨.nil, ?_⟩, ?_, ⟨hms, min_le_right _ _, le_refl _⟩, ⟨rfl, rfl, rfl⟩, ⟨.inr rfl, ?_⟩, rfl⟩
  · intro c hmem
    cases hmem
  · intro c hmem
    cases hmem
  · intro f _ g _ hf
    cases f <;> cases hf

theorem referenceOpcodes_legal : referenceOpcodes.legal = true := by decide

end Sys2Proof.Machine

open Sys2Proof Sys2Proof.Machine

/-- Settles O59: a fault at the fetch keeps the invariant, and so does every handler. -/
theorem stepKeepsTheInvariant : Obligations.StepKeepsTheInvariant := by
  intro s t hs h
  obtain ⟨hr, ⟨f, rfl⟩ | ⟨i, hi⟩⟩ := step_next_cases h
  · exact State.inv_raise hs hr f
  · exact inv_exec hs hr hi

/-- Settles O58: a launch is an initialisation and a load, and each keeps to the invariant. -/
theorem legalLaunchesMeetTheInvariant : Obligations.LegalLaunchesMeetTheInvariant := by
  refine ⟨fun reqMem reqLimit ops adv image h => ?_, ?_⟩
  · simp only [legalLaunch, Bool.and_eq_true] at h
    obtain ⟨⟨⟨hm, hl⟩, ho⟩, -⟩ := h
    exact inv_placeBytes (inv_init (launchConfig_legal hm hl ho adv)) 0 image
  · exact inv_init (launchConfig_legal (by decide) (by decide) referenceOpcodes_legal _)
end

section
/-!
PROOFS. The register check (R105), and the way from the bytes at pc to the instruction that runs (R100, R110).
-/

namespace Sys2Proof.Machine

/-- A check of one register byte raises when the byte names none, and else when the rest of the handler does. -/
theorem raises_checkReg {b : Byte} {s : State} {k : Fin 4 → Result}
    (h : regOf b = none ∨ ∀ r, raises (k r) .invalidRegisterIndex) :
    raises (checkReg b s k) .invalidRegisterIndex := by
  unfold checkReg
  cases hb : regOf b with
  | none => exact ⟨_, rfl, rfl, by simp⟩
  | some r => exact (h.resolve_left (by simp [hb])) r

/-- A handler whose only register byte is invalid raises once its length check passes. -/
theorem raises_of_invalid_reg {len : Nat} {b : Byte} {s : State} {k : Fin 4 → Result} (hf : s.fits len)
    (h : ∃ c ∈ [b], 4 ≤ c.toNat) :
    raises (checkLength len s (checkReg b s k)) .invalidRegisterIndex := by
  rw [checkLength, if_pos hf]
  obtain ⟨c, hc, h4⟩ := h
  obtain rfl := List.mem_singleton.mp hc
  exact raises_checkReg (.inl (regOf_eq_none.mpr h4))

/-- A handler with an invalid byte among its two register bytes raises once its length check passes. -/
theorem raises_of_invalid_regs {len : Nat} {a b : Byte} {s : State} {k : Fin 4 → Fin 4 → Result}
    (hf : s.fits len) (h : ∃ c ∈ [a, b], 4 ≤ c.toNat) :
    raises (checkLength len s (checkReg a s fun p => checkReg b s (k p))) .invalidRegisterIndex := by
  rw [checkLength, if_pos hf]
  obtain ⟨c, hc, h4⟩ := h
  have hnone := regOf_eq_none.mpr h4
  obtain rfl | hc := List.mem_cons.mp hc
  · exact raises_checkReg (.inl hnone)
  · obtain rfl := List.mem_singleton.mp hc
    exact raises_checkReg (.inr fun p => raises_checkReg (.inl hnone))

/-- An invalid register byte raises INVALID_REGISTER_INDEX in every handler that has one (R105, R106). -/
theorem exec_raises_of_invalid_reg {i : Instr} {s : State} (hf : s.fits (lengthOf i.mnemonic))
    (h : ∃ b ∈ i.regBytes, 4 ≤ b.toNat) : raises (exec i s) .invalidRegisterIndex := by
  cases i
  case add | mul | div | mod | cmp | rload | rstore => exact raises_of_invalid_regs hf h
  case neg | load | store | const | push | pop | lsp => exact raises_of_invalid_reg hf h
  case ja | je | jb | jmp | call | ret | halt | int | nop | pushAll | popAll =>
    obtain ⟨b, hb, -⟩ := h
    cases hb

/-! ### From bytes to an instruction -/

theorem mem_mnemonic_all (m : Mnemonic) : m ∈ Mnemonic.all := by
  cases m <;> decide

/-- A legal opcode map gives no byte to two mnemonics (R73). -/
theorem opcodeOf_inj {ops : OpcodeMap} (h : ops.legal = true) {m n : Mnemonic} :
    ops.opcodeOf m = ops.opcodeOf n ↔ m = n := by
  refine ⟨fun he => ?_, fun he => by rw [he]⟩
  have hm := List.all_eq_true.mp h m (mem_mnemonic_all m)
  obtain ⟨-, hall⟩ := (Bool.and_eq_true _ _).mp hm
  simpa [he] using List.all_eq_true.mp hall n (mem_mnemonic_all n)

/-- The table maps a mnemonic's opcode byte to that mnemonic (R71). -/
theorem lookupOpcode_opcodeOf {ops : OpcodeMap} (h : ops.legal = true) (m : Mnemonic) :
    lookupOpcode ops (ops.opcodeOf m) = some m := by
  have hp : (fun n => ops.opcodeOf n == ops.opcodeOf m) = fun n => n == m :=
    funext fun n => decide_eq_decide.mpr (opcodeOf_inj h)
  rw [lookupOpcode, hp]
  cases m <;> rfl

/-- The operands of an instruction, read from its operand bytes, give it back whatever bytes follow. -/
theorem takeOperands_operandBytes (i : Instr) (rest : List Byte) :
    takeOperands i.mnemonic (operandBytes i ++ rest) = some (i, rest) := by
  have word (w : Word) := Memory.wordOfBytes_wordByte w
  cases i
  case ja | je | jb | jmp | call => exact congrArg (fun w => some (_, rest)) (word _)
  case load | store | const => simp [takeOperands, operandBytes, wordBytes, takeByteWord, word, Instr.mnemonic]
  all_goals rfl

theorem decode_encode_append {ops : OpcodeMap} (h : ops.legal = true) (i : Instr) (rest : List Byte) :
    decode ops (encode ops i ++ rest) = .instr i rest := by
  simp only [encode, List.cons_append, decode, lookupOpcode_opcodeOf h, takeOperands_operandBytes]

/-- The encoding has the length of the table (R72). -/
theorem length_encode (ops : OpcodeMap) (i : Instr) : (encode ops i).length = lengthOf i.mnemonic := by
  cases i <;> rfl

/-- Every length of the table is from 1 to 6. -/
theorem lengthOf_bounds (m : Mnemonic) : 1 ≤ lengthOf m ∧ lengthOf m ≤ maxLength := by
  cases m <;> decide

namespace Memory

theorem length_readBytes (m : Memory) (a n : Nat) : (m.readBytes a n).length = n := by
  induction n generalizing a with
  | zero => rfl
  | succ n ih => rw [readBytes, List.length_cons, ih]

/-- Byte `k` of the bytes from `a` up is the byte at `a + k`. -/
theorem getElem?_readBytes (m : Memory) (a : Nat) {n k : Nat} (h : k < n) :
    (m.readBytes a n)[k]? = some (m.read (a + k)) := by
  induction n generalizing a k with
  | zero => omega
  | succ n ih =>
    cases k with
    | zero => rfl
    | succ k =>
      rw [readBytes, List.getElem?_cons_succ, ih (a + 1) (by omega)]
      congr 2
      omega

theorem readBytes_add (m : Memory) (a n k : Nat) :
    m.readBytes a (n + k) = m.readBytes a n ++ m.readBytes (a + n) k := by
  induction n generalizing a with
  | zero => simp [readBytes]
  | succ n ih =>
    rw [Nat.add_right_comm, readBytes, readBytes, ih, List.cons_append, Nat.add_assoc a 1 n, Nat.add_comm 1 n]

end Memory

/-- The bytes of memory from `a` up are those of the encoding when they agree one by one. -/
theorem readBytes_eq_encode {m : Memory} {a : Nat} {ops : OpcodeMap} {i : Instr}
    (h : ∀ k, k < lengthOf i.mnemonic → (encode ops i)[k]? = some (m.read (a + k))) :
    m.readBytes a (lengthOf i.mnemonic) = encode ops i := by
  refine List.ext_getElem? fun k => ?_
  by_cases hk : k < lengthOf i.mnemonic
  · rw [h k hk, Memory.getElem?_readBytes m a hk]
  · rw [List.getElem?_eq_none (by rw [Memory.length_readBytes]; omega),
      List.getElem?_eq_none (by rw [length_encode]; omega)]

/-- When `n` bytes, at least 1 and at most 6, lie inside memory at pc, the fetch window begins with them. -/
theorem fetchWindow_eq_append {s : State} {n : Nat} (h0 : 0 ≤ s.pc.toInt) (h1 : 1 ≤ n) (h6 : n ≤ maxLength)
    (hf : s.fits n) : ∃ rest, fetchWindow s = s.mem.readBytes s.pc.toNat n ++ rest := by
  have hin : 0 ≤ s.pc.toInt ∧ s.pc.toInt < s.cfg.ms.toInt := ⟨h0, by unfold State.fits at hf; omega⟩
  have hn : n ≤ min maxLength (s.cfg.ms.toInt - s.pc.toInt).toNat := by unfold State.fits at hf; omega
  obtain ⟨k, hk⟩ := Nat.exists_eq_add_of_le hn
  rw [fetchWindow, if_pos hin, hk, Memory.readBytes_add]
  exact ⟨_, rfl⟩

/-- A running core whose fetch window decodes to an instruction runs its handler (R103, R110). -/
theorem step_of_decode {s : State} {i : Instr} {rest : List Byte} (hr : s.run = .running)
    (h : decode s.cfg.opcodes (fetchWindow s) = .instr i rest) : step s = exec i s := by
  have hfetch : fetch s = .run i := by simp only [fetch, hr, h]
  rw [step, hfetch]

end Sys2Proof.Machine

open Sys2Proof Sys2Proof.Machine

/-- Settles O14: the register checks come right after the length check in every handler. -/
theorem registerByteNamesARegisterOrFaults : Obligations.RegisterByteNamesARegisterOrFaults :=
  ⟨fun _ _ => regOf_eq_some, fun _ => regOf_eq_none, fun _ _ hf h => exec_raises_of_invalid_reg hf h⟩

/-- Settles O10: the fetch window begins with the encoding, which decodes to the instruction whatever follows. -/
theorem stepRunsTheInstructionStoredAtPc : Obligations.StepRunsTheInstructionStoredAtPc := by
  intro s i hops hr h0 hf hbytes
  obtain ⟨h1, h6⟩ := lengthOf_bounds i.mnemonic
  obtain ⟨rest, hwin⟩ := fetchWindow_eq_append h0 h1 h6 hf
  rw [readBytes_eq_encode hbytes] at hwin
  exact step_of_decode hr (by rw [hwin, decode_encode_append hops])
end

section
/-!
PROOFS. What no instruction reads. Two states are twins when they differ only in the registers of a set `hidden`
and in the flags by `G`; a handler that reads no hidden register takes twins to twins. With no hidden register and
`G` setting a fault flag this is R31's last sentence; with one hidden register and no change of the flags it is the
column "reads" of R22.
-/

namespace Sys2Proof.Machine

/-- `u` is `s` but for the registers of `hidden` and a change `G` of the flags. -/
structure Twin (hidden : Fin 4 → Prop) (G : Flags → Flags) (s u : State) : Prop where
  cfg : u.cfg = s.cfg
  pc : u.pc = s.pc
  sp : u.sp = s.sp
  flags : u.flags = G s.flags
  run : u.run = s.run
  mem : u.mem = s.mem
  out : u.out = s.out
  reg : ∀ q, ¬ hidden q → u.reg q = s.reg q

/-- The change `G` of the flags keeps the comparison flags and commutes with what the core does to flags. -/
structure FaultsOnly (G : Flags → Flags) : Prop where
  below : ∀ f, (G f).below = f.below
  equal : ∀ f, (G f).equal = f.equal
  above : ∀ f, (G f).above = f.above
  setFault : ∀ f g, (G f).setFault g = G (f.setFault g)
  compare : ∀ f a b, (G f).compare a b = G (f.compare a b)

/-- Both outcomes are next states, and these are twins. -/
def nextTwin (hidden : Fin 4 → Prop) (G : Flags → Flags) (o p : Result) : Prop :=
  ∃ t u, o = .next t ∧ p = .next u ∧ Twin hidden G t u

/-- Setting a fault flag keeps the comparison flags and commutes with what the core does to flags. -/
theorem faultsOnly_setFault (f : FaultFlag) : FaultsOnly (fun fl => fl.setFault f) where
  below _ := Flags.setFault_below _ f
  equal _ := Flags.setFault_equal _ f
  above _ := Flags.setFault_above _ f
  setFault _ g := by cases f <;> cases g <;> rfl
  compare _ _ _ := by cases f <;> rfl

theorem faultsOnly_id : FaultsOnly id :=
  ⟨fun _ => rfl, fun _ => rfl, fun _ => rfl, fun _ _ => rfl, fun _ _ _ => rfl⟩

section
variable {hidden : Fin 4 → Prop} {G : Flags → Flags} {s u : State} {k l : Result}

theorem nextTwin_of_twin (h : Twin hidden G s u) : nextTwin hidden G (.next s) (.next u) :=
  ⟨s, u, rfl, rfl, h⟩

namespace Twin

/-! ### Operations on the state take twins to twins -/

theorem setReg (h : Twin hidden G s u) (r : Fin 4) (v : Word) :
    Twin hidden G (s.setReg r v) (u.setReg r v) where
  __ := h
  reg q hq := by rw [State.reg_setReg, State.reg_setReg, h.reg q hq]

theorem advance (h : Twin hidden G s u) (n : Nat) : Twin hidden G (s.advance n) (u.advance n) where
  __ := h
  pc := by rw [State.advance_pc, State.advance_pc, h.pc]

theorem jump (h : Twin hidden G s u) (target : Word) : Twin hidden G (s.jump target) (u.jump target) where
  __ := h
  pc := rfl

theorem halt (h : Twin hidden G s u) : Twin hidden G s.halt u.halt where
  __ := h
  run := rfl

theorem raiseUndefined (h : Twin hidden G s u) (r : UndefinedReason) :
    Twin hidden G (s.raiseUndefined r) (u.raiseUndefined r) where
  __ := h
  run := rfl

theorem raise (hG : FaultsOnly G) (h : Twin hidden G s u) (f : FaultFlag) :
    Twin hidden G (s.raise f) (u.raise f) where
  __ := h
  run := rfl
  flags := by rw [State.raise_flags, State.raise_flags, h.flags, hG.setFault]

theorem compare (hG : FaultsOnly G) (h : Twin hidden G s u) (a b : Word) :
    Twin hidden G { s with flags := s.flags.compare a b } { u with flags := u.flags.compare a b } where
  __ := h
  flags := by dsimp only; rw [h.flags, hG.compare]

theorem emit (h : Twin hidden G s u) (e : Event) : Twin hidden G (s.emit e) (u.emit e) where
  __ := h
  out := by rw [State.emit_out, State.emit_out, h.out]

theorem writeWord (h : Twin hidden G s u) (a : Nat) (v : Word) :
    Twin hidden G { s with mem := s.mem.writeWord a v } { u with mem := u.mem.writeWord a v } where
  __ := h
  mem := by dsimp only; rw [h.mem]

theorem moveSp (h : Twin hidden G s u) (n : Word) :
    Twin hidden G { s with sp := s.sp + n } { u with sp := u.sp + n } where
  __ := h
  sp := by dsimp only; rw [h.sp]

theorem push (h : Twin hidden G s u) (v : Word) : Twin hidden G (s.push v) (u.push v) where
  __ := h
  sp := by simp only [State.push_sp, State.pushAddr, h.sp]
  mem := by simp only [State.push_mem, State.pushAddr, h.sp, h.mem]

/-! ### Checks on twins decide alike -/

theorem checkLength (hG : FaultsOnly G) (h : Twin hidden G s u) {len : Nat} (hk : nextTwin hidden G k l) :
    nextTwin hidden G (checkLength len s k) (checkLength len u l) := by
  unfold Machine.checkLength State.fits
  rw [h.pc, h.cfg]
  split
  · exact hk
  · exact nextTwin_of_twin (h.raise hG _)

theorem checkReg (hG : FaultsOnly G) (h : Twin hidden G s u) {b : Byte} {k l : Fin 4 → Result}
    (hk : ∀ r, regOf b = some r → nextTwin hidden G (k r) (l r)) :
    nextTwin hidden G (checkReg b s k) (checkReg b u l) := by
  unfold Machine.checkReg
  cases hb : regOf b with
  | none => exact nextTwin_of_twin (h.raise hG _)
  | some r => exact hk r hb

theorem checkAvailable (hG : FaultsOnly G) (h : Twin hidden G s u) {n : Int} (hk : nextTwin hidden G k l) :
    nextTwin hidden G (checkAvailable n s k) (checkAvailable n u l) := by
  unfold Machine.checkAvailable State.available
  rw [h.sp, h.cfg]
  split
  · exact nextTwin_of_twin (h.raise hG _)
  · exact hk

theorem occupied (h : Twin hidden G s u) : u.occupied = s.occupied := by
  unfold State.occupied
  rw [h.sp, h.cfg]

/-- The rest of the handler may count on the bytes the check has found. -/
theorem checkOccupied (hG : FaultsOnly G) (h : Twin hidden G s u) {n : Int}
    (hk : n ≤ s.occupied → nextTwin hidden G k l) :
    nextTwin hidden G (checkOccupied n s k) (checkOccupied n u l) := by
  unfold Machine.checkOccupied
  rw [h.occupied]
  split
  · exact nextTwin_of_twin (h.raise hG _)
  · exact hk (by omega)

theorem checkData (hG : FaultsOnly G) (h : Twin hidden G s u) {ea : Word} (hk : nextTwin hidden G k l) :
    nextTwin hidden G (checkData ea s k) (checkData ea u l) := by
  unfold Machine.checkData State.dataOk
  rw [h.cfg]
  split
  · exact hk
  · exact nextTwin_of_twin (h.raise hG _)

/-! ### Shared forms of handlers -/

theorem jumpWhen (hG : FaultsOnly G) (h : Twin hidden G s u) (taken : Bool) (target : Word) :
    nextTwin hidden G (jumpWhen taken target s) (jumpWhen taken target u) := by
  refine h.checkLength hG ?_
  cases taken
  · exact nextTwin_of_twin (h.advance 5)
  · exact nextTwin_of_twin (h.jump target)

theorem cstring (h : Twin hidden G s u) (v : Word) : u.cstring v = s.cstring v := by
  unfold State.cstring
  rw [h.cfg, h.mem]

/-- A stack that is not empty pops the same word off twins, and leaves twins. -/
theorem pop (h : Twin hidden G s u) (hs : ¬ s.isEmpty) :
    u.pop.1 = s.pop.1 ∧ Twin hidden G s.pop.2 u.pop.2 := by
  have hu : ¬ u.isEmpty := by
    unfold State.isEmpty
    rwa [h.sp, h.cfg]
  rw [State.pop_of_occupied hs, State.pop_of_occupied hu]
  exact ⟨by rw [h.mem, h.sp], h.moveSp 4#32⟩

theorem popInto (h : Twin hidden G s u) (hs : 4 ≤ s.occupied) (r : Fin 4) :
    Twin hidden G (s.popInto r) (u.popInto r) := by
  obtain ⟨hword, hrest⟩ := h.pop (not_isEmpty_of_occupied hs)
  unfold State.popInto
  rw [hword]
  exact hrest.setReg r _

theorem popAll (h : Twin hidden G s u) (hs : 16 ≤ s.occupied) : Twin hidden G s.popAll u.popAll := by
  have h3 := occupied_popInto (by omega : 4 ≤ s.occupied) 3
  have h2 := occupied_popInto (by omega : 4 ≤ (s.popInto 3).occupied) 2
  have h1 := occupied_popInto (by omega : 4 ≤ ((s.popInto 3).popInto 2).occupied) 1
  exact (((h.popInto (by omega) 3).popInto (by omega) 2).popInto (by omega) 1).popInto (by omega) 0

theorem execInt (hG : FaultsOnly G) (h : Twin hidden G s u) (n : Byte) :
    nextTwin hidden G (execInt n s) (execInt n u) := by
  refine h.checkLength hG ?_
  have hempty : u.isEmpty ↔ s.isEmpty := by
    unfold State.isEmpty
    rw [h.sp, h.cfg]
  split
  · exact nextTwin_of_twin (h.raise hG _)
  · by_cases hs : s.isEmpty
    · rw [if_pos hs, if_pos (hempty.mpr hs)]
      exact nextTwin_of_twin (h.raise hG _)
    · rw [if_neg hs, if_neg (mt hempty.mp hs)]
      obtain ⟨hword, hrest⟩ := h.pop hs
      rw [hword, h.cstring]
      split
      · exact nextTwin_of_twin ((hrest.emit _).advance 2)
      · cases s.cstring s.pop.1 with
        | none => exact nextTwin_of_twin (h.raise hG _)
        | some str => exact nextTwin_of_twin ((hrest.emit _).advance 2)

end Twin

/-- A handler that reads no hidden register takes twins to twins. -/
theorem exec_twin (hG : FaultsOnly G) (h : Twin hidden G s u) {i : Instr}
    (hread : ∀ b ∈ readsRegs i, ∀ q, regOf b = some q → ¬ hidden q) :
    nextTwin hidden G (exec i s) (exec i u) := by
  have same {b : Byte} {q : Fin 4} (hb : b ∈ readsRegs i) (hq : regOf b = some q) : u.reg q = s.reg q :=
    h.reg q (hread b hb q hq)
  cases i
  case add | mul =>
    refine h.checkLength hG <| h.checkReg hG fun a ha => h.checkReg hG fun d hd => ?_
    rw [same (.head _) ha, same (.tail _ (.head _)) hd]
    exact nextTwin_of_twin ((h.setReg d _).advance 3)
  case div | mod =>
    refine h.checkLength hG <| h.checkReg hG fun a ha => h.checkReg hG fun d hd => ?_
    rw [same (.head _) ha, same (.tail _ (.head _)) hd]
    split
    · exact nextTwin_of_twin (h.raiseUndefined _)
    · exact nextTwin_of_twin ((h.setReg d _).advance 3)
  case cmp =>
    refine h.checkLength hG <| h.checkReg hG fun a ha => h.checkReg hG fun b hb => ?_
    rw [same (.head _) ha, same (.tail _ (.head _)) hb]
    exact nextTwin_of_twin ((h.compare hG _ _).advance 3)
  case neg =>
    refine h.checkLength hG <| h.checkReg hG fun d hd => ?_
    rw [same (.head _) hd]
    exact nextTwin_of_twin ((h.setReg d _).advance 2)
  case const =>
    exact h.checkLength hG <| h.checkReg hG fun d _ => nextTwin_of_twin ((h.setReg d _).advance 6)
  case lsp =>
    refine h.checkLength hG <| h.checkReg hG fun d _ => ?_
    rw [h.sp]
    exact nextTwin_of_twin ((h.setReg d _).advance 2)
  case ja target => simpa only [exec, execJa, h.flags, hG.above] using h.jumpWhen hG _ target
  case je target => simpa only [exec, execJe, h.flags, hG.equal] using h.jumpWhen hG _ target
  case jb target => simpa only [exec, execJb, h.flags, hG.below] using h.jumpWhen hG _ target
  case jmp target => exact h.jumpWhen hG true target
  case call target =>
    refine h.checkLength hG <| h.checkAvailable hG ?_
    rw [h.pc]
    exact nextTwin_of_twin ((h.push _).jump target)
  case ret =>
    refine h.checkLength hG <| h.checkOccupied hG fun hs => ?_
    obtain ⟨hword, hrest⟩ := h.pop (not_isEmpty_of_occupied hs)
    rw [hword]
    exact nextTwin_of_twin (hrest.jump _)
  case load =>
    refine h.checkLength hG <| h.checkReg hG fun d _ => h.checkData hG ?_
    rw [h.mem]
    exact nextTwin_of_twin ((h.setReg d _).advance 6)
  case store =>
    refine h.checkLength hG <| h.checkReg hG fun d hd => h.checkData hG ?_
    rw [same (.head _) hd]
    exact nextTwin_of_twin ((h.writeWord _ _).advance 6)
  case rload =>
    refine h.checkLength hG <| h.checkReg hG fun a ha => h.checkReg hG fun d _ => ?_
    rw [same (.head _) ha, h.mem]
    exact h.checkData hG <| nextTwin_of_twin ((h.setReg d _).advance 3)
  case rstore =>
    refine h.checkLength hG <| h.checkReg hG fun d hd => h.checkReg hG fun a ha => ?_
    rw [same (.head _) hd, same (.tail _ (.head _)) ha]
    exact h.checkData hG <| nextTwin_of_twin ((h.writeWord _ _).advance 3)
  case halt =>
    refine h.checkLength hG ?_
    rw [h.cfg]
    exact nextTwin_of_twin (h.advance _).halt
  case int n => exact h.execInt hG n
  case nop => exact h.checkLength hG <| nextTwin_of_twin (h.advance 1)
  case push =>
    refine h.checkLength hG <| h.checkReg hG fun d hd => h.checkAvailable hG ?_
    rw [same (.head _) hd]
    exact nextTwin_of_twin ((h.push _).advance 2)
  case pushAll =>
    refine h.checkLength hG <| h.checkAvailable hG ?_
    have hall : ∀ q, u.reg q = s.reg q := fun q => by
      obtain ⟨b, hb, hq⟩ := namesReg_all q
      exact same hb (regOf_eq_some.mpr hq)
    unfold State.pushAll
    rw [hall, hall, hall, hall]
    exact nextTwin_of_twin (((((h.push _).push _).push _).push _).advance 1)
  case pop =>
    exact h.checkLength hG <| h.checkReg hG fun d _ => h.checkOccupied hG fun hs =>
      nextTwin_of_twin ((h.popInto hs d).advance 2)
  case popAll =>
    exact h.checkLength hG <| h.checkOccupied hG fun hs => nextTwin_of_twin ((h.popAll hs).advance 1)

/-- Twins with no hidden register are equal but for the flags. -/
theorem Twin.eq_of_no_hidden (h : Twin (fun _ => False) G s u) : u = { s with flags := G s.flags } := by
  have hx : u.x = s.x := Vector.ext fun j hj => h.reg ⟨j, hj⟩ id
  obtain ⟨hcfg, hpc, hsp, hflags, hrun, hmem, hout, -⟩ := h
  cases u
  simp_all only

end

/-- No handler reads a fault flag: setting one beforehand changes nothing else in the next state (R31). -/
theorem exec_setFault (i : Instr) (s : State) (f : FaultFlag) : ∃ t, exec i s = .next t ∧
    exec i { s with flags := s.flags.setFault f } = .next { t with flags := t.flags.setFault f } := by
  have h : Twin (fun _ => False) (fun fl => fl.setFault f) s { s with flags := s.flags.setFault f } :=
    ⟨rfl, rfl, rfl, rfl, rfl, rfl, rfl, fun _ _ => rfl⟩
  obtain ⟨t, u, ht, hu, htwin⟩ := exec_twin (faultsOnly_setFault f) h fun _ _ _ _ => id
  exact ⟨t, ht, by rw [hu, htwin.eq_of_no_hidden]⟩

end Sys2Proof.Machine

open Sys2Proof Sys2Proof.Machine

/-- Settles O18: a step clears no fault flag, since a fault sets one and a completing handler leaves them all. -/
theorem faultFlagsAreStickyAndUnread : Obligations.FaultFlagsAreStickyAndUnread := by
  refine ⟨fun s f => by simp, fun s t f h hf => ?_, fun c f => by cases f <;> rfl, fun _ _ => rfl, exec_setFault⟩
  obtain ⟨-, ⟨g, rfl⟩ | ⟨i, hi⟩⟩ := step_next_cases h
  · simp [hf]
  · exact exec_keeps_fault hi hf

/-- Settles O22: the state with x[r] replaced is a twin whose only hidden register is r. -/
theorem unreadRegistersHaveNoInfluence : Obligations.UnreadRegistersHaveNoInfluence := by
  intro i s r v hr
  have h : Twin (· = r) id s (s.setReg r v) :=
    ⟨rfl, rfl, rfl, rfl, rfl, rfl, rfl, fun q hq => by rw [State.reg_setReg, if_neg hq]⟩
  have hread : ∀ b ∈ readsRegs i, ∀ q, regOf b = some q → ¬ q = r :=
    fun b hb q hq he => hr ⟨b, hb, he ▸ regOf_eq_some.mp hq⟩
  obtain ⟨t, u, ht, hu, htwin⟩ := exec_twin faultsOnly_id h hread
  exact ⟨t, u, ht, hu, htwin.pc, htwin.sp, htwin.flags, htwin.run, htwin.mem, htwin.out, htwin.cfg, htwin.reg⟩
end

section
/-!
PROOFS. Words in memory (20_memory.md R52, R53): the value of four bytes, what a word read returns after a word
write, and the words each instruction may store to.
-/

namespace Sys2Proof.Machine

/-- Appending a byte below some bits shifts them up by 8. -/
theorem toNat_append_byte {n : Nat} (x : BitVec n) (b : Byte) :
    (x ++ b).toNat = 2 ^ 8 * x.toNat + b.toNat := by
  rw [BitVec.toNat_append, ← Nat.shiftLeft_add_eq_or_of_lt b.isLt, Nat.shiftLeft_eq, Nat.mul_comm]

/-- The little-endian number of four bytes (R52, R77). -/
theorem toNat_wordOfBytes (b0 b1 b2 b3 : Byte) : (wordOfBytes b0 b1 b2 b3).toNat =
    b0.toNat + 2 ^ 8 * b1.toNat + 2 ^ 16 * b2.toNat + 2 ^ 24 * b3.toNat := by
  simp only [wordOfBytes, toNat_append_byte]
  omega

/-- Byte `k` of a word (R53). -/
theorem toNat_wordByte (w : Word) (k : Nat) : (wordByte w k).toNat = w.toNat / 2 ^ (8 * k) % 2 ^ 8 := by
  rw [wordByte, BitVec.extractLsb'_toNat, Nat.shiftRight_eq_div_pow]

namespace Memory

/-- A word reads back what was written to it (R53). -/
theorem readWord_writeWord_self {m : Memory} (hm : m.wf) (a : Nat) (v : Word) :
    (m.writeWord a v).readWord a = v := by
  have byte {k : Nat} (hk : k < 4) := read_writeWord_inside hm a v hk
  have byte0 := byte (k := 0) (by decide)
  rw [Nat.add_zero] at byte0
  rw [readWord, byte0, byte (by decide), byte (by decide), byte (by decide), wordOfBytes_wordByte]

/-- A word write leaves every word that begins above the written one's end. -/
theorem readWord_writeWord_above (m : Memory) {a b : Nat} (v : Word) (h : a + 4 ≤ b) :
    (m.writeWord a v).readWord b = m.readWord b := by
  have byte {c : Nat} (hc : b ≤ c) := read_writeWord_outside m v (.inr (h.trans hc))
  rw [readWord, byte (by omega), byte (by omega), byte (by omega), byte (by omega), readWord]

end Memory

/-- The addresses of the words an instruction stores to when it completes (R53, R57): one for STORE, RSTORE, PUSH
and CALL, four for PUSH_ALL, none for the others. -/
def storedWords (i : Instr) (s : State) : List Word :=
  match i with
  | .store _ ea => [ea]
  | .rstore _ a => ((regOf a).map s.reg).toList
  | .push _ | .call _ => [s.pushAddr]
  | .pushAll => [s.sp - 4#32, s.sp - 8#32, s.sp - 12#32, s.sp - 16#32]
  | _ => []

section
variable (s : State)
@[simp] theorem storedWords_store (r : Byte) (ea : Word) : storedWords (.store r ea) s = [ea] := rfl
@[simp] theorem storedWords_rstore (d a : Byte) :
    storedWords (.rstore d a) s = ((regOf a).map s.reg).toList := rfl
@[simp] theorem storedWords_push (r : Byte) : storedWords (.push r) s = [s.pushAddr] := rfl
@[simp] theorem storedWords_call (target : Word) : storedWords (.call target) s = [s.pushAddr] := rfl
@[simp] theorem storedWords_pushAll :
    storedWords .pushAll s = [s.sp - 4#32, s.sp - 8#32, s.sp - 12#32, s.sp - 16#32] := rfl
end

/-- Only the listed mnemonics store. -/
theorem storedWords_eq_nil {i : Instr} (s : State)
    (h : i.mnemonic ∉ [.store, .rstore, .push, .call, .pushAll]) : storedWords i s = [] := by
  cases i
  case store | rstore | push | call | pushAll => exact absurd (by simp [Instr.mnemonic]) h
  all_goals rfl

/-- A completing instruction changes no byte outside the words it stores to. -/
theorem completes_read_outside {i : Instr} {s t : State} {b : Nat} (h : completes i s t)
    (hb : ∀ a ∈ storedWords i s, outsideWord a.toNat b) : t.mem.read b = s.mem.read b := by
  have word (m : Memory) {a : Word} (v : Word) (ha : a ∈ storedWords i s) :
      (m.writeWord a.toNat v).read b = m.read b := Memory.read_writeWord_outside m v (hb a ha)
  cases i <;> simp only [completes] at h
  case store | push =>
    obtain ⟨d, -, -, rfl⟩ := h
    exact word _ _ (by simp)
  case call =>
    obtain ⟨-, rfl⟩ := h
    exact word _ _ (by simp)
  case rstore =>
    obtain ⟨d, a, -, ha, -, rfl⟩ := h
    exact word _ _ (by simp [ha])
  case pushAll =>
    obtain ⟨-, rfl⟩ := h
    rw [pushAll_eq, State.advance_mem]
    dsimp only
    rw [word, word, word, word] <;> simp
  case add | mul | cmp =>
    obtain ⟨a, d, -, -, rfl⟩ := h
    rfl
  case div | mod | rload =>
    obtain ⟨a, d, -, -, -, rfl⟩ := h
    rfl
  case neg | const | lsp =>
    obtain ⟨d, -, rfl⟩ := h
    rfl
  case load | pop =>
    obtain ⟨d, -, -, rfl⟩ := h
    rfl
  case ja | je | jb =>
    subst h
    split <;> rfl
  case jmp | nop =>
    subst h
    rfl
  case ret | popAll =>
    obtain ⟨-, rfl⟩ := h
    rfl
  case int =>
    obtain ⟨-, e, rfl, -⟩ := h
    rfl

/-- A handler changes no byte outside the words its instruction stores to; one that stops changes none (D12). -/
theorem exec_read_outside {i : Instr} {s t : State} {b : Nat} (h : exec i s = .next t)
    (hb : ∀ a ∈ storedWords i s, outsideWord a.toNat b) : t.mem.read b = s.mem.read b := by
  obtain ⟨f, rfl⟩ | rfl | ⟨-, rfl⟩ | ⟨-, hc⟩ := exec_next_cases h
  · rfl
  · rfl
  · rfl
  · exact completes_read_outside hc hb

end Sys2Proof.Machine

open Sys2Proof Sys2Proof.Machine

/-- Settles O7: the little-endian number of the four bytes, read in two's complement (G2). -/
theorem readWordIsLittleEndianSigned : Obligations.ReadWordIsLittleEndianSigned := by
  intro m a u
  have hu : (m.readWord a).toNat = u := toNat_wordOfBytes _ _ _ _
  rw [BitVec.toInt_eq_toNat_cond, hu]
  split <;> split <;> omega

/-- Settles O8, by the law of each byte inside and outside the written word. -/
theorem writeWordStoresLittleEndianBytes : Obligations.WriteWordStoresLittleEndianBytes := by
  intro m a v hm
  refine ⟨Memory.readWord_writeWord_self hm a v, fun k hk => ?_, fun b hb => Memory.read_writeWord_outside m v hb⟩
  rw [Memory.read_writeWord_inside hm a v hk, toNat_wordByte]

/-- Settles O26: each clause names the words of one row of `storedWords`. -/
theorem onlyTheStoredBytesChange : Obligations.OnlyTheStoredBytesChange := by
  intro s t b
  refine ⟨fun r ea h hb => ?_, fun d a q h hq hb => ?_, fun d a h hq => ?_, fun r h hb => ?_,
    fun target h hb => ?_, fun h h4 h8 h12 h16 => ?_, fun i hi h => ?_⟩
  all_goals refine exec_read_outside h ?_
  · simpa using hb
  · simpa [hq] using hb
  · simp [hq]
  · simpa using hb
  · simpa using hb
  · simpa using ⟨h4, h8, h12, h16⟩
  · simp [storedWords_eq_nil s hi]
end

section
/-!
PROOFS. The stack as a list of words (20_memory.md R60 to R66). `OnTop s ws` says that the words `ws` lie on top of
the stack, the first one at sp; a push puts its word before them and a pop takes the first away. The LIFO law and
PUSH_ALL with POP_ALL are both runs of pushes followed by runs of pops.
-/

namespace Sys2Proof.Machine

/-- The words `ws` lie in memory one after the other from address `a` up. -/
def Memory.holdsWords (m : Memory) (a : Nat) : List Word → Prop
  | [] => True
  | w :: ws => m.readWord a = w ∧ Memory.holdsWords m (a + 4) ws

/-- A word write below some words leaves them. -/
theorem Memory.holdsWords_writeWord {m : Memory} {a b : Nat} {ws : List Word} (h : m.holdsWords b ws) (v : Word)
    (hab : a + 4 ≤ b) : (m.writeWord a v).holdsWords b ws := by
  induction ws generalizing b with
  | nil => trivial
  | cons w ws ih =>
    obtain ⟨hw, hws⟩ := h
    exact ⟨by rw [readWord_writeWord_above m v hab, hw], ih hws (by omega)⟩

namespace State

/-- The words `ws` lie on top of the stack, the first one at sp, in a canonical memory. -/
structure OnTop (s : State) (ws : List Word) : Prop where
  wf : s.mem.wf
  sp_nonneg : 0 ≤ s.sp.toInt
  used : 4 * (ws.length : Int) ≤ s.occupied
  words : s.mem.holdsWords s.sp.toNat ws

/-- A push with 4 free bytes puts its word on top. -/
theorem OnTop.push {s : State} {ws : List Word} (h : s.OnTop ws) (hsl : 0 ≤ s.cfg.sl.toInt)
    (hfree : 4 ≤ s.available) (v : Word) : (s.push v).OnTop (v :: ws) := by
  obtain ⟨hwf, hsp, hused, hwords⟩ := h
  have hint := pushAddr_toInt hfree
  unfold available at hfree
  have hnat : s.sp.toNat = s.pushAddr.toNat + 4 := by
    have hold := toNat_of_nonneg hsp
    have hnew := toNat_of_nonneg (w := s.pushAddr) (by omega)
    omega
  unfold occupied at hused
  refine ⟨Memory.wf_writeWord hwf _ _, ?_, ?_, Memory.readWord_writeWord_self hwf _ v, ?_⟩
  · rw [push_sp]
    omega
  · simp only [occupied, push_sp, push_cfg, List.length_cons]
    omega
  · rw [hnat] at hwords
    exact Memory.holdsWords_writeWord hwords v (le_refl _)

/-- A pop gives the word on top and moves sp to the next one. -/
theorem OnTop.popInto_eq {s : State} {w : Word} {ws : List Word} (h : s.OnTop (w :: ws)) (r : Fin 4) :
    s.popInto r = { s.setReg r w with sp := s.sp + 4#32 } := by
  obtain ⟨-, -, hused, hw, -⟩ := h
  rw [List.length_cons] at hused
  rw [Machine.popInto_eq (by omega), hw]

/-- After a pop the other words lie on top. -/
theorem OnTop.popInto {s : State} {w : Word} {ws : List Word} (h : s.OnTop (w :: ws)) (r : Fin 4) :
    (s.popInto r).OnTop ws := by
  rw [h.popInto_eq]
  obtain ⟨hwf, hsp, hused, -, hws⟩ := h
  rw [List.length_cons] at hused
  have hint := popped_sp_toInt (by omega : 4 ≤ s.occupied)
  have hnat : (s.sp + 4#32).toNat = s.sp.toNat + 4 := by
    have hold := toNat_of_nonneg hsp
    have hnew := toNat_of_nonneg (w := s.sp + 4#32) (by omega)
    omega
  unfold occupied at hused
  refine ⟨hwf, ?_, ?_, ?_⟩
  · dsimp only
    omega
  · simp only [occupied, setReg_cfg]
    omega
  · rwa [← hnat] at hws

/-- Pushes a register. -/
def pushReg (s : State) (r : Fin 4) : State := s.push (s.reg r)

/-- Pushes the registers `rs`, the first one first. -/
def pushRegs (s : State) (rs : List (Fin 4)) : State := rs.foldl pushReg s

/-- Pops into the registers `qs`, the first one first. -/
def popRegs (s : State) (qs : List (Fin 4)) : State := qs.foldl State.popInto s

theorem pushRegs_cons (s : State) (r : Fin 4) (rs : List (Fin 4)) :
    s.pushRegs (r :: rs) = (s.push (s.reg r)).pushRegs rs := rfl
theorem popRegs_cons (s : State) (q : Fin 4) (qs : List (Fin 4)) :
    s.popRegs (q :: qs) = (s.popInto q).popRegs qs := rfl

theorem pushAll_eq_pushRegs (s : State) : s.pushAll = s.pushRegs [0, 1, 2, 3] := rfl
theorem popAll_eq_popRegs (s : State) : s.popAll = s.popRegs [3, 2, 1, 0] := by
  simp only [popAll, popRegs, List.foldl_cons, List.foldl_nil]

/-- Pushes leave the registers, pc and the configuration. -/
theorem pushRegs_frame (s : State) (rs : List (Fin 4)) :
    (s.pushRegs rs).x = s.x ∧ (s.pushRegs rs).pc = s.pc ∧ (s.pushRegs rs).cfg = s.cfg := by
  induction rs generalizing s with
  | nil => exact ⟨rfl, rfl, rfl⟩
  | cons r rs ih => exact ih (s.push (s.reg r))

/-- Each push takes 4 off sp (R61). -/
theorem pushRegs_sp (s : State) (rs : List (Fin 4)) :
    (s.pushRegs rs).sp = s.sp - BitVec.ofNat 32 (4 * rs.length) := by
  induction rs generalizing s with
  | nil => simp [pushRegs]
  | cons r rs ih =>
    rw [pushRegs_cons, ih, push_sp, pushAddr, BitVec.sub_sub, BitVec.ofNat_add_ofNat, List.length_cons]
    congr 2
    omega

/-- The pushed values lie on top, the last one first. -/
theorem OnTop.pushRegs {s : State} {ws : List Word} (h : s.OnTop ws) (hsl : 0 ≤ s.cfg.sl.toInt)
    {rs : List (Fin 4)} (hfree : 4 * (rs.length : Int) ≤ s.available) :
    (s.pushRegs rs).OnTop ((rs.map s.reg).reverse ++ ws) := by
  induction rs generalizing s ws with
  | nil => exact h
  | cons r rs ih =>
    rw [List.length_cons] at hfree
    have h4 : 4 ≤ s.available := by omega
    have hrest := ih (h.push hsl h4 (s.reg r)) hsl (by rw [available_push h4]; omega)
    rw [State.pushRegs_cons, List.map_cons, List.reverse_cons, List.append_assoc]
    exact hrest

/-- Pops give the words on top in their order and give 4 bytes each back to sp. -/
theorem OnTop.popRegs {s : State} {qs : List (Fin 4)} {ws : List Word} (h : s.OnTop ws)
    (hlen : qs.length = ws.length) :
    (s.popRegs qs).sp = s.sp + BitVec.ofNat 32 (4 * qs.length) ∧
      (s.popRegs qs).x = (qs.zip ws).foldl (fun x p => x.set p.1 p.2) s.x := by
  induction qs generalizing s ws with
  | nil => simp [State.popRegs]
  | cons q qs ih =>
    cases ws with
    | nil => cases hlen
    | cons w ws =>
      obtain ⟨hsp, hx⟩ := ih (h.popInto q) (Nat.succ.inj hlen)
      rw [h.popInto_eq] at hsp hx
      refine ⟨?_, by rw [State.popRegs_cons, h.popInto_eq, hx]; rfl⟩
      rw [State.popRegs_cons, h.popInto_eq, hsp, BitVec.add_assoc, BitVec.ofNat_add_ofNat, List.length_cons]
      congr 2
      omega

/-- Pushes that fit put their values on top of an untouched stack, the last one first. -/
theorem onTop_pushRegs {s : State} {rs : List (Fin 4)} (hwf : s.mem.wf) (hsl : 0 ≤ s.cfg.sl.toInt)
    (hms : s.sp.toInt ≤ s.cfg.ms.toInt) (hfree : 4 * (rs.length : Int) ≤ s.available) :
    (s.pushRegs rs).OnTop (rs.reverse.map s.reg) := by
  have hempty : s.OnTop [] := by
    unfold available at hfree
    exact ⟨hwf, by omega, by unfold occupied; simpa using hms, trivial⟩
  simpa using hempty.pushRegs hsl hfree

/-- Pushes and then as many pops: sp returns, and the pops get the pushed values in reverse order (R66). -/
theorem popRegs_pushRegs {s : State} {rs qs : List (Fin 4)} (hlen : rs.length = qs.length) (hwf : s.mem.wf)
    (hsl : 0 ≤ s.cfg.sl.toInt) (hms : s.sp.toInt ≤ s.cfg.ms.toInt)
    (hfree : 4 * (rs.length : Int) ≤ s.available) :
    ((s.pushRegs rs).popRegs qs).sp = s.sp ∧
      ((s.pushRegs rs).popRegs qs).x =
        (qs.zip (rs.reverse.map s.reg)).foldl (fun x p => x.set p.1 p.2) s.x := by
  obtain ⟨hsp, hx⟩ := (onTop_pushRegs hwf hsl hms hfree).popRegs (qs := qs) (by simp [hlen])
  rw [pushRegs_sp, hlen, BitVec.sub_add_cancel] at hsp
  rw [(pushRegs_frame s rs).1] at hx
  exact ⟨hsp, hx⟩

/-! ### Runs of PUSH and POP -/

/-- A pop does not look at pc. -/
theorem popInto_advance (s : State) (n : Nat) (r : Fin 4) :
    (s.advance n).popInto r = (s.popInto r).advance n := by
  unfold popInto pop
  by_cases h : s.isEmpty
  · have h' : (s.advance n).isEmpty := h
    rw [if_pos h, if_pos h']
    rfl
  · have h' : ¬ (s.advance n).isEmpty := h
    rw [if_neg h, if_neg h']
    rfl

theorem advance_advance (s : State) (m n : Nat) : (s.advance m).advance n = s.advance (m + n) := by
  simp only [advance, BitVec.add_assoc, BitVec.ofNat_add_ofNat]

theorem fits_of_le {s : State} {m n : Nat} (h : s.fits n) (hmn : m ≤ n) : s.fits m := by
  unfold fits at *
  omega

/-- When `m + n` bytes fit at pc, the last `n` fit after the first `m`. -/
theorem fits_advance {s : State} {m n : Nat} (h : s.fits (m + n)) : (s.advance m).fits n := by
  unfold fits at *
  have hlow := BitVec.le_toInt s.pc
  have hhigh := BitVec.toInt_lt (x := s.cfg.ms)
  rw [advance_pc, BitVec.toInt_add, BitVec.toInt_ofNat', Int.add_bmod_bmod, Int.bmod_eq_of_le, advance_cfg] <;>
    omega

end State

/-- The byte that a register number is names that register (R21). -/
theorem regOf_ofNat (r : Fin 4) : regOf (BitVec.ofNat 8 r.val) = some r := by
  rw [regOf_eq_some, BitVec.toNat_ofNat]
  omega

/-- PUSH completes on a valid register with 4 free bytes (R200). -/
theorem exec_push {b : Byte} {r : Fin 4} {s : State} (hb : regOf b = some r) (hf : s.fits 2)
    (hfree : 4 ≤ s.available) : exec (.push b) s = .next ((s.push (s.reg r)).advance 2) :=
  checkLength_next.mpr (.inl ⟨hf, checkReg_next.mpr (.inl ⟨r, hb, checkAvailable_next.mpr (.inl ⟨hfree, rfl⟩)⟩)⟩)

/-- POP completes on a valid register with 4 used bytes (R202). -/
theorem exec_pop {b : Byte} {r : Fin 4} {s : State} (hb : regOf b = some r) (hf : s.fits 2)
    (hused : 4 ≤ s.occupied) : exec (.pop b) s = .next ((s.popInto r).advance 2) :=
  checkLength_next.mpr (.inl ⟨hf, checkReg_next.mpr (.inl ⟨r, hb, checkOccupied_next.mpr (.inl ⟨hused, rfl⟩)⟩)⟩)

/-- PUSH_ALL completes with 16 free bytes (R201). -/
theorem exec_pushAll {s : State} (hf : s.fits 1) (hfree : 16 ≤ s.available) :
    exec .pushAll s = .next (s.pushAll.advance 1) :=
  checkLength_next.mpr (.inl ⟨hf, checkAvailable_next.mpr (.inl ⟨hfree, rfl⟩)⟩)

/-- POP_ALL completes with 16 used bytes (R203). -/
theorem exec_popAll {s : State} (hf : s.fits 1) (hused : 16 ≤ s.occupied) :
    exec .popAll s = .next (s.popAll.advance 1) :=
  checkLength_next.mpr (.inl ⟨hf, checkOccupied_next.mpr (.inl ⟨hused, rfl⟩)⟩)

theorem execList_cons {i : Instr} {is : List Instr} {s t : State} (h : exec i s = .next t) :
    execList (i :: is) s = execList is t := by
  rw [execList, h]

theorem execList_append {is js : List Instr} {s t : State} (h : execList is s = .next t) :
    execList (is ++ js) s = execList js t := by
  induction is generalizing s with
  | nil =>
    cases h
    rfl
  | cons i is ih =>
    rw [execList] at h
    split at h
    · next u hu => rw [List.cons_append, execList_cons hu, ih h]
    · cases h
    · cases h

/-- What PUSH and POP have in common: with 4 bytes of `room` (free for PUSH, used for POP) the instruction `mk`
completes as `op` on its register and takes those 4 bytes; `op` neither reads pc nor changes what fits there. -/
structure StackOp (mk : Byte → Instr) (op : State → Fin 4 → State) (room : State → Int) : Prop where
  completes {b : Byte} {r : Fin 4} {s : State} :
    regOf b = some r → s.fits 2 → 4 ≤ room s → exec (mk b) s = .next ((op s r).advance 2)
  room_op {s : State} (r : Fin 4) : 4 ≤ room s → room ((op s r).advance 2) = room s - 4
  fits {s : State} (r : Fin 4) (n : Nat) : 4 ≤ room s → s.fits n → (op s r).fits n
  advance (s : State) (n : Nat) (r : Fin 4) : op (s.advance n) r = (op s r).advance n

theorem stackOp_push : StackOp .push State.pushReg State.available where
  completes := exec_push
  room_op {s} r h := State.available_push h (s.reg r)
  fits _ _ _ hf := hf
  advance _ _ _ := rfl

theorem stackOp_pop : StackOp .pop State.popInto State.occupied where
  completes := exec_pop
  room_op r h := occupied_popInto h r
  fits r n h hf := by rwa [popInto_eq h]
  advance := State.popInto_advance

section
variable {mk : Byte → Instr} {op : State → Fin 4 → State} {room : State → Int}

theorem StackOp.foldl_advance (h : StackOp mk op room) (s : State) (n : Nat) (rs : List (Fin 4)) :
    rs.foldl op (s.advance n) = (rs.foldl op s).advance n := by
  induction rs generalizing s with
  | nil => rfl
  | cons r rs ih => rw [List.foldl_cons, h.advance, ih, List.foldl_cons]

/-- With room for all of them, such instructions complete one after the other. -/
theorem StackOp.execList (h : StackOp mk op room) {s : State} {rs : List (Fin 4)} (hf : s.fits (2 * rs.length))
    (hroom : 4 * (rs.length : Int) ≤ room s) :
    execList (rs.map fun r => mk (BitVec.ofNat 8 r.val)) s =
      .next ((rs.foldl op s).advance (2 * rs.length)) := by
  induction rs generalizing s with
  | nil => simp [Machine.execList, State.advance]
  | cons r rs ih =>
    have hlen : 2 * (rs.length + 1) = 2 + 2 * rs.length := by omega
    rw [List.length_cons] at hroom
    rw [List.length_cons, hlen] at hf ⊢
    have h4 : 4 ≤ room s := by omega
    have hfirst := h.completes (regOf_ofNat r) (State.fits_of_le hf (by omega)) h4
    have hrest := ih (State.fits_advance (h.fits r _ h4 hf)) (by rw [h.room_op r h4]; omega)
    rw [List.map_cons, execList_cons hfirst, hrest, h.foldl_advance, State.advance_advance, List.foldl_cons]

end

/-- Writing all four registers from x[3] down to x[0], as POP_ALL does, leaves nothing of the old register file. -/
theorem set_all_registers (x v : Vector Word 4) :
    (((x.set 3 v[3]).set 2 v[2]).set 1 v[1]).set 0 v[0] = v := by
  refine Vector.ext fun i hi => ?_
  interval_cases i <;> simp

end Sys2Proof.Machine

open Sys2Proof Sys2Proof.Machine

/-- Settles O53: the PUSHes complete, so do the POPs, and sp and the registers are then those of the stack's law. -/
theorem pushesThenPopsAreLifo : Obligations.PushesThenPopsAreLifo := by
  intro rs qs s hlen hwf hsl hms hfree hpc
  obtain ⟨hsp, hx⟩ := State.popRegs_pushRegs hlen hwf hsl hms hfree
  obtain ⟨-, hpc', hcfg⟩ := s.pushRegs_frame rs
  have hall : s.fits (2 * rs.length + 2 * qs.length) := by
    unfold State.fits
    omega
  have hpush := stackOp_push.execList (State.fits_of_le hall (by omega)) hfree
  have hused : 4 * (qs.length : Int) ≤ (s.pushRegs rs).occupied := by
    simpa [hlen] using (State.onTop_pushRegs hwf hsl hms hfree).used
  have hf : ((s.pushRegs rs).advance (2 * rs.length)).fits (2 * qs.length) :=
    State.fits_advance (by unfold State.fits; rwa [hpc', hcfg])
  refine ⟨_, (execList_append hpush).trans (stackOp_pop.execList hf hused), ?_⟩
  rw [stackOp_pop.foldl_advance]
  exact ⟨hsp, hx⟩

/-- Settles O52: PUSH_ALL is four pushes and POP_ALL four pops in the opposite order. -/
theorem popAllUndoesPushAll : Obligations.PopAllUndoesPushAll := by
  intro s hwf hsl hms hfree hpc
  obtain ⟨hsp, hx⟩ := State.popRegs_pushRegs (rs := [0, 1, 2, 3]) (qs := [3, 2, 1, 0]) rfl hwf hsl hms hfree
  rw [← State.pushAll_eq_pushRegs, ← State.popAll_eq_popRegs] at hsp hx
  have hused : 16 ≤ s.pushAll.occupied := by
    rw [State.pushAll_eq_pushRegs]
    simpa using (State.onTop_pushRegs (rs := [0, 1, 2, 3]) hwf hsl hms hfree).used
  have hx' : s.pushAll.popAll.x = s.x := hx.trans (set_all_registers s.x s.x)
  have hpc' : s.pushAll.popAll.pc = s.pc := by rw [popAll_eq hused, pushAll_eq]
  have hf : s.pushAll.fits (1 + 1) := by rwa [pushAll_eq]
  have hpopAll : (s.pushAll.advance 1).popAll = s.pushAll.popAll.advance 1 := by
    simp only [State.popAll, State.popInto_advance]
  refine ⟨_, _, exec_pushAll (State.fits_of_le (n := 2) hpc (by decide)) hfree,
    exec_popAll (State.fits_advance hf) hused, ?_⟩
  rw [hpopAll, State.advance_advance, State.advance_x, State.advance_sp, State.advance_pc]
  exact ⟨hx', hsp, by rw [hpc']⟩
end

section
/-!
PROOFS. The encoding (R70 to R78). Each format of R70 says once what its reader accepts and when it runs out of
bytes; the operand reader inherits both, and the decoder is the opcode table in front of it.
-/

namespace Sys2Proof.Machine

/-! ### The operand formats -/

theorem takeByte_eq_some {k : Byte → Instr} {bs rest : List Byte} {i : Instr} :
    takeByte k bs = some (i, rest) ↔ ∃ a, i = k a ∧ bs = a :: rest := by
  unfold takeByte
  split <;> simp [eq_comm]

theorem takeTwoBytes_eq_some {k : Byte → Byte → Instr} {bs rest : List Byte} {i : Instr} :
    takeTwoBytes k bs = some (i, rest) ↔ ∃ a b, i = k a b ∧ bs = a :: b :: rest := by
  unfold takeTwoBytes
  split <;> simp_all [eq_comm]

/-- The bytes of the word of four bytes are those four (R77). -/
theorem wordBytes_wordOfBytes (a b c d : Byte) : wordBytes (wordOfBytes a b c d) = [a, b, c, d] := by
  obtain ⟨h0, h1, h2, h3⟩ := Memory.wordByte_wordOfBytes a b c d
  rw [wordBytes, h0, h1, h2, h3]

theorem bytes_of_takeWord {k : Word → Instr} {bs rest : List Byte} {i : Instr}
    (h : takeWord k bs = some (i, rest)) : ∃ w, i = k w ∧ bs = wordBytes w ++ rest := by
  unfold takeWord at h
  split at h
  · next a b c d _ =>
    cases h
    exact ⟨wordOfBytes a b c d, rfl, by rw [wordBytes_wordOfBytes]; rfl⟩
  · cases h

theorem bytes_of_takeByteWord {k : Byte → Word → Instr} {bs rest : List Byte} {i : Instr}
    (h : takeByteWord k bs = some (i, rest)) : ∃ r w, i = k r w ∧ bs = r :: wordBytes w ++ rest := by
  unfold takeByteWord at h
  split at h
  · next r a b c d _ =>
    cases h
    exact ⟨r, wordOfBytes a b c d, rfl, by rw [wordBytes_wordOfBytes]; rfl⟩
  · cases h

theorem takeByte_eq_none {k : Byte → Instr} {bs : List Byte} : takeByte k bs = none ↔ bs.length < 1 := by
  rcases bs with _ | ⟨a, bs⟩ <;> simp [takeByte]

theorem takeTwoBytes_eq_none {k : Byte → Byte → Instr} {bs : List Byte} :
    takeTwoBytes k bs = none ↔ bs.length < 2 := by
  rcases bs with _ | ⟨a, _ | ⟨b, bs⟩⟩ <;> simp [takeTwoBytes]

theorem takeWord_eq_none {k : Word → Instr} {bs : List Byte} : takeWord k bs = none ↔ bs.length < 4 := by
  rcases bs with _ | ⟨a, _ | ⟨b, _ | ⟨c, _ | ⟨d, bs⟩⟩⟩⟩ <;> simp [takeWord]

/-- Format RW is a register byte in front of format W. -/
theorem takeByteWord_eq_none {k : Byte → Word → Instr} {bs : List Byte} :
    takeByteWord k bs = none ↔ bs.length < 5 := by
  rcases bs with _ | ⟨r, _ | ⟨a, _ | ⟨b, _ | ⟨c, _ | ⟨d, bs⟩⟩⟩⟩⟩ <;> simp [takeByteWord]

/-! ### The operands of a mnemonic -/

/-- The operand bytes an instruction of `m` is read from are that instruction's operand bytes. -/
theorem bytes_of_takeOperands {m : Mnemonic} {bs rest : List Byte} {i : Instr}
    (h : takeOperands m bs = some (i, rest)) : i.mnemonic = m ∧ bs = operandBytes i ++ rest := by
  cases m
  case ret | halt | nop | pushAll | popAll =>
    cases h
    exact ⟨rfl, rfl⟩
  case neg | int | push | pop | lsp =>
    obtain ⟨a, rfl, rfl⟩ := takeByte_eq_some.mp h
    exact ⟨rfl, rfl⟩
  case add | mul | div | mod | cmp | rload | rstore =>
    obtain ⟨a, b, rfl, rfl⟩ := takeTwoBytes_eq_some.mp h
    exact ⟨rfl, rfl⟩
  case ja | je | jb | jmp | call =>
    obtain ⟨w, rfl, rfl⟩ := bytes_of_takeWord h
    exact ⟨rfl, rfl⟩
  case load | store | const =>
    obtain ⟨r, w, rfl, rfl⟩ := bytes_of_takeByteWord h
    exact ⟨rfl, rfl⟩

/-- Reading operands fails exactly when the opcode byte and the bytes after it are fewer than the length. -/
theorem takeOperands_eq_none {m : Mnemonic} {bs : List Byte} :
    takeOperands m bs = none ↔ bs.length + 1 < lengthOf m := by
  cases m
  case ret | halt | nop | pushAll | popAll => simp [takeOperands, lengthOf]
  case neg | int | push | pop | lsp => exact takeByte_eq_none.trans Nat.succ_lt_succ_iff.symm
  case add | mul | div | mod | cmp | rload | rstore =>
    exact takeTwoBytes_eq_none.trans Nat.succ_lt_succ_iff.symm
  case ja | je | jb | jmp | call => exact takeWord_eq_none.trans Nat.succ_lt_succ_iff.symm
  case load | store | const => exact takeByteWord_eq_none.trans Nat.succ_lt_succ_iff.symm

/-- The operand bytes are an encoding, under whatever opcode map, without its opcode byte. -/
theorem length_operandBytes (i : Instr) : (operandBytes i).length = lengthOf i.mnemonic - 1 :=
  Nat.eq_sub_of_add_eq (length_encode (.replicate 25 0) i)

/-- With enough bytes the operand reader takes the length's worth of them and leaves the rest. -/
theorem takeOperands_eq_some_drop {m : Mnemonic} {bs : List Byte} (h : lengthOf m ≤ bs.length + 1) :
    ∃ i, i.mnemonic = m ∧ takeOperands m bs = some (i, bs.drop (lengthOf m - 1)) := by
  have hsome : takeOperands m bs ≠ none := fun hn => Nat.not_lt.mpr h (takeOperands_eq_none.mp hn)
  obtain ⟨⟨i, rest⟩, ht⟩ := Option.ne_none_iff_exists'.mp hsome
  obtain ⟨rfl, rfl⟩ := bytes_of_takeOperands ht
  exact ⟨i, rfl, by rw [ht, ← length_operandBytes, List.drop_left]⟩

/-! ### The opcode table and the decoder -/

theorem opcodeOf_of_lookupOpcode {ops : OpcodeMap} {b : Byte} {m : Mnemonic} (h : lookupOpcode ops b = some m) :
    ops.opcodeOf m = b :=
  eq_of_beq (List.find?_some (p := fun n => ops.opcodeOf n == b) h)

/-- A byte is SENTINEL exactly when it is no mnemonic's opcode (R71). -/
theorem lookupOpcode_eq_none {ops : OpcodeMap} {b : Byte} :
    lookupOpcode ops b = none ↔ ∀ m, ops.opcodeOf m ≠ b := by
  simp [lookupOpcode, mem_mnemonic_all]

theorem decode_of_sentinel {ops : OpcodeMap} {op : Byte} (bs : List Byte) (h : lookupOpcode ops op = none) :
    decode ops (op :: bs) = .unmapped op := by
  rw [decode, h]

theorem decode_of_takeOperands_none {ops : OpcodeMap} {op : Byte} {bs : List Byte} {m : Mnemonic}
    (hop : lookupOpcode ops op = some m) (h : takeOperands m bs = none) :
    decode ops (op :: bs) = .truncated m := by
  simp only [decode, hop, h]

theorem decode_of_takeOperands_some {ops : OpcodeMap} {op : Byte} {bs rest : List Byte} {m : Mnemonic}
    {i : Instr} (hop : lookupOpcode ops op = some m) (h : takeOperands m bs = some (i, rest)) :
    decode ops (op :: bs) = .instr i rest := by
  simp only [decode, hop, h]

/-- When the decoder answers an instruction, the table has the first byte's mnemonic and its operands follow. -/
theorem decode_eq_instr {ops : OpcodeMap} {bytes rest : List Byte} {i : Instr}
    (h : decode ops bytes = .instr i rest) :
    ∃ op bs m, bytes = op :: bs ∧ lookupOpcode ops op = some m ∧ takeOperands m bs = some (i, rest) := by
  cases bytes with
  | nil => cases h
  | cons op bs =>
    cases hop : lookupOpcode ops op with
    | none => cases (decode_of_sentinel bs hop).symm.trans h
    | some m =>
      cases ht : takeOperands m bs with
      | none => cases (decode_of_takeOperands_none hop ht).symm.trans h
      | some p =>
        cases (decode_of_takeOperands_some hop ht).symm.trans h
        exact ⟨op, bs, m, rfl, hop, ht⟩

/-! ### Counting the table -/

theorem nodup_mnemonic_all : Mnemonic.all.Nodup := by decide

theorem opcodeOf_ne_0x99 {ops : OpcodeMap} (h : ops.legal = true) (m : Mnemonic) : ops.opcodeOf m ≠ 0x99#8 := by
  obtain ⟨hne, -⟩ := (Bool.and_eq_true _ _).mp (List.all_eq_true.mp h m (mem_mnemonic_all m))
  exact bne_iff_ne.mp hne

/-- The byte values that are not SENTINEL are, in some order, the opcode bytes of the 25 mnemonics. -/
theorem mappedBytes_perm {ops : OpcodeMap} (h : ops.legal = true) :
    ((List.range 256).filter fun n => (lookupOpcode ops (BitVec.ofNat 8 n)).isSome).Perm
      (Mnemonic.all.map fun m => (ops.opcodeOf m).toNat) := by
  have hinj : Function.Injective fun m => (ops.opcodeOf m).toNat := fun _ _ he =>
    (opcodeOf_inj h).mp (BitVec.eq_of_toNat_eq he)
  refine (List.perm_ext_iff_of_nodup (List.nodup_range.filter _) (nodup_mnemonic_all.map hinj)).mpr fun n => ?_
  simp only [List.mem_filter, List.mem_range, List.mem_map, mem_mnemonic_all, true_and]
  constructor
  · rintro ⟨hn, hsome⟩
    obtain ⟨m, hm⟩ := Option.isSome_iff_exists.mp hsome
    exact ⟨m, by rw [opcodeOf_of_lookupOpcode hm, BitVec.toNat_ofNat, Nat.mod_eq_of_lt hn]⟩
  · rintro ⟨m, rfl⟩
    rw [BitVec.ofNat_toNat, BitVec.setWidth_eq, lookupOpcode_opcodeOf h]
    exact ⟨(ops.opcodeOf m).isLt, rfl⟩

end Sys2Proof.Machine

open Sys2Proof Sys2Proof.Machine

/-- Settles O1: the table gives the opcode byte's mnemonic back, and the operand reader the operands. -/
theorem decodeOfEncodeIsTheInstruction : Obligations.DecodeOfEncodeIsTheInstruction :=
  fun _ i rest hops => decode_encode_append hops i rest

/-- Settles O2: the opcode byte is the mnemonic's and the operand bytes are the instruction's. -/
theorem decodedBytesAreTheEncoding : Obligations.DecodedBytesAreTheEncoding := by
  intro ops bytes rest i h
  obtain ⟨op, bs, m, rfl, hop, ht⟩ := decode_eq_instr h
  obtain ⟨rfl, rfl⟩ := bytes_of_takeOperands ht
  rw [encode, opcodeOf_of_lookupOpcode hop, List.cons_append]

/-- Settles O3: only the number of bytes decides whether the operand reader fails, and how many it takes. -/
theorem opcodeByteAloneFixesMnemonicAndLength : Obligations.OpcodeByteAloneFixesMnemonicAndLength := by
  intro ops op bs m hop
  refine ⟨fun hfew => decode_of_takeOperands_none hop (takeOperands_eq_none.mpr hfew), fun henough => ?_⟩
  obtain ⟨i, hi, ht⟩ := takeOperands_eq_some_drop henough
  exact ⟨i, hi, decode_of_takeOperands_some hop ht⟩

/-- Settles O4: the table is a search by opcode byte, and no step changes the configuration that holds it. -/
theorem opcodeTableMapsMnemonicOrSentinel : Obligations.OpcodeTableMapsMnemonicOrSentinel :=
  ⟨fun _ m hops => lookupOpcode_opcodeOf hops m, fun _ _ => lookupOpcode_eq_none,
    fun _ _ bs hop => decode_of_sentinel bs hop,
    fun s t h => congrArg Config.opcodes (stepNeverChangesTheConfiguration s t h)⟩

/-- Settles O5: 25 of the 256 byte values are opcodes, since a legal map gives no byte twice. -/
theorem legalMapsLeave231SentinelBytes : Obligations.LegalMapsLeave231SentinelBytes := by
  intro ops hops
  refine ⟨?_, lookupOpcode_eq_none.mpr (opcodeOf_ne_0x99 hops)⟩
  have hmapped := (mappedBytes_perm hops).length_eq
  have hsplit := List.length_eq_length_filter_add (l := List.range 256)
    fun n => (lookupOpcode ops (BitVec.ofNat 8 n)).isSome
  rw [hmapped, List.length_map, List.length_range] at hsplit
  simp only [Option.not_isSome] at hsplit
  exact (Nat.add_left_cancel (n := 25) hsplit).symm

/-- Settles O6: each word is the encoding of its instruction under the reference assignment, a legal map. -/
theorem specWordsDecodeToTheirInstructions : Obligations.SpecWordsDecodeToTheirInstructions :=
  have decodes (i : Instr) := decode_encode_append referenceOpcodes_legal i []
  ⟨decodes (.add 1 2), decodes (.je 21), decodes (.load 2 64), decodes (.rstore 1 0), decodes (.int 2),
    decodes .pushAll⟩
end

section
/-!
PROOFS. The cycle (R100 to R113). What the fetch window holds decides what the fetch answers; each answer of the
fetch has its one step; and a step ends a run only as a fault, a handler's stop or HALT does.
-/

namespace Sys2Proof.Machine

section
variable {s : State}

/-! ### The fetch window -/

theorem fetchWindow_of_outside (h : s.pc.toInt < 0 ∨ s.cfg.ms.toInt ≤ s.pc.toInt) : fetchWindow s = [] :=
  if_neg (by omega)

theorem fetchWindow_of_inside (h0 : 0 ≤ s.pc.toInt) (hms : s.pc.toInt < s.cfg.ms.toInt) :
    fetchWindow s = s.mem.readBytes s.pc.toNat (min maxLength (s.cfg.ms.toInt - s.pc.toInt).toNat) :=
  if_pos ⟨h0, hms⟩

/-- With pc in [0, MS) the window begins with the opcode byte and never reaches past MS. -/
theorem fetchWindow_eq_cons (h0 : 0 ≤ s.pc.toInt) (hms : s.pc.toInt < s.cfg.ms.toInt) :
    ∃ bs, fetchWindow s = s.mem.read s.pc.toNat :: bs ∧ s.fits (bs.length + 1) := by
  obtain ⟨n, hn⟩ : ∃ n, min maxLength (s.cfg.ms.toInt - s.pc.toInt).toNat = n + 1 :=
    Nat.exists_eq_add_one.mpr (by unfold maxLength; omega)
  refine ⟨s.mem.readBytes (s.pc.toNat + 1) n, ?_, ?_⟩
  · rw [fetchWindow_of_inside h0 hms, hn, Memory.readBytes]
  · rw [Memory.length_readBytes]
    unfold State.fits
    omega

/-! ### What the fetch answers, and its step -/

theorem fetch_of_outside (hr : s.run = .running) (h : s.pc.toInt < 0 ∨ s.cfg.ms.toInt ≤ s.pc.toInt) :
    fetch s = .raise .badAccess := by
  simp only [fetch, hr, fetchWindow_of_outside h, decode]

theorem fetch_of_unmapped (hr : s.run = .running) (h0 : 0 ≤ s.pc.toInt) (hms : s.pc.toInt < s.cfg.ms.toInt)
    (hop : lookupOpcode s.cfg.opcodes (s.mem.read s.pc.toNat) = none) : fetch s = .raise .badInstruction := by
  obtain ⟨bs, hwin, -⟩ := fetchWindow_eq_cons h0 hms
  simp only [fetch, hr, hwin, decode_of_sentinel bs hop]

/-- The operands of an instruction that runs past MS cannot be read from the window, whatever its bytes (R104). -/
theorem fetch_of_cutOff {m : Mnemonic} (hr : s.run = .running) (h0 : 0 ≤ s.pc.toInt)
    (hms : s.pc.toInt < s.cfg.ms.toInt) (hop : lookupOpcode s.cfg.opcodes (s.mem.read s.pc.toNat) = some m)
    (hlen : s.cfg.ms.toInt < s.pc.toInt + lengthOf m) : fetch s = .raise .badAccess := by
  obtain ⟨bs, hwin, hfits⟩ := fetchWindow_eq_cons h0 hms
  have hfew : bs.length + 1 < lengthOf m := by
    unfold State.fits at hfits
    omega
  simp only [fetch, hr, hwin, decode_of_takeOperands_none hop (takeOperands_eq_none.mpr hfew)]

/-- A running core raises a fault at the fetch or fetches an instruction. -/
theorem fetch_cases_of_running (hr : s.run = .running) : (∃ f, fetch s = .raise f) ∨ ∃ i, fetch s = .run i := by
  simp only [fetch, hr]
  cases decode s.cfg.opcodes (fetchWindow s) with
  | noByte => exact .inl ⟨_, rfl⟩
  | unmapped op => exact .inl ⟨_, rfl⟩
  | truncated m => exact .inl ⟨_, rfl⟩
  | instr i rest => exact .inr ⟨i, rfl⟩

/-- An instruction is fetched only while running and from below MS. -/
theorem running_and_pc_lt_of_fetch_run {i : Instr} (h : fetch s = .run i) :
    s.run = .running ∧ s.pc.toInt < s.cfg.ms.toInt := by
  have hr : s.run = .running := by
    by_contra hne
    obtain ⟨f, hf⟩ := fetch_of_not_running hne
    cases hf.symm.trans h
  refine ⟨hr, ?_⟩
  by_contra hpc
  cases (fetch_of_outside hr (.inr (Int.not_lt.mp hpc))).symm.trans h

theorem step_of_fetch_raise {f : FaultFlag} (h : fetch s = .raise f) : step s = .next (s.raise f) := by
  rw [step, h]

theorem step_of_fetch_run {i : Instr} (h : fetch s = .run i) : step s = exec i s := by
  rw [step, h]

theorem step_of_fetch_stop {f : Fault} (h : fetch s = .stop f) : step s = .fault f := by
  rw [step, h]

/-! ### How handlers begin and end -/

/-- Every handler is its length check with the rest of the handler behind it (R104, R106). -/
theorem exec_eq_checkLength (i : Instr) (s : State) :
    ∃ k, exec i s = checkLength (lengthOf i.mnemonic) s k := by
  cases i <;> exact ⟨_, rfl⟩

theorem exec_of_not_fits {i : Instr} (h : ¬ s.fits (lengthOf i.mnemonic)) :
    exec i s = .next (s.raise .badAccess) := by
  obtain ⟨k, hk⟩ := exec_eq_checkLength i s
  rw [hk, checkLength, if_neg h]

/-- Every handler answers a next state: with or without a fault flag set beforehand it goes the same way. -/
theorem exec_next (i : Instr) (s : State) : ∃ t, exec i s = .next t := by
  obtain ⟨t, ht, -⟩ := exec_setFault i s .badAccess
  exact ⟨t, ht⟩

theorem step_next_of_running (hr : s.run = .running) : ∃ t, step s = .next t := by
  obtain ⟨f, hf⟩ | ⟨i, hi⟩ := fetch_cases_of_running hr
  · exact ⟨_, step_of_fetch_raise hf⟩
  · rw [step_of_fetch_run hi]
    exact exec_next i s

/-- A raised fault sets its flag, leaves the other four, and changes nothing else but the run state (R225). -/
theorem stopsPrecisely_raise (s : State) (f : FaultFlag) : stopsPrecisely s (s.raise f) :=
  .inl ⟨f, rfl, by simp, fun g hg => by simp [hg]⟩

/-- The four ways a handler ends in a running core (R103, R224, R126, R180). -/
theorem exec_ends {i : Instr} {t : State} (hr : s.run = .running) (h : exec i s = .next t) :
    t.run = .running ∨ stopsPrecisely s t ∨ (i = .halt ∧ haltsAfter s t) := by
  obtain ⟨f, rfl⟩ | rfl | ⟨hi, rfl⟩ | ⟨-, hc⟩ := exec_next_cases h
  · exact .inr (.inl (stopsPrecisely_raise s f))
  · exact .inr (.inl (.inr rfl))
  · exact .inr (.inr ⟨hi, rfl⟩)
  · exact .inl ((completes_run_cfg hc).1.trans hr)

/-- The four ways a step ends: a fault at the fetch ends it as a handler's fault does. -/
theorem step_ends {t : State} (hr : s.run = .running) (h : step s = .next t) :
    t.run = .running ∨ stopsPrecisely s t ∨ (fetch s = .run .halt ∧ haltsAfter s t) := by
  obtain ⟨f, hf⟩ | ⟨i, hi⟩ := fetch_cases_of_running hr
  · rw [step_of_fetch_raise hf] at h
    cases h
    exact .inr (.inl (stopsPrecisely_raise s f))
  · rw [step_of_fetch_run hi] at h
    refine (exec_ends hr h).imp_right (Or.imp_right ?_)
    rintro ⟨rfl, hh⟩
    exact ⟨hi, hh⟩

/-- A stop that is not HALT's is no clean end of the run (R112). -/
theorem not_cleanEnd_of_stopsPrecisely {t : State} (h : stopsPrecisely s t) : ¬ t.cleanEnd := by
  rintro ⟨hrun, hnf⟩
  obtain ⟨f, -, hset, -⟩ | rfl := h
  · cases hset.symm.trans (Flags.noFault_iff.mp hnf f)
  · cases hrun

/-- On a core that meets the invariant a step ends the run cleanly exactly when it runs HALT (R112, R180). -/
theorem cleanEnd_iff_fetch_halt {t : State} (hs : s.inv) (h : step s = .next t) :
    t.cleanEnd ↔ fetch s = .run .halt := by
  constructor
  · intro hclean
    obtain ⟨hr, -⟩ := step_next_cases h
    obtain hrun | hstop | ⟨hfetch, -⟩ := step_ends hr h
    · cases hrun.symm.trans hclean.1
    · exact absurd hclean (not_cleanEnd_of_stopsPrecisely hstop)
    · exact hfetch
  · intro hfetch
    obtain ⟨hr, hpc⟩ := running_and_pc_lt_of_fetch_run hfetch
    have hnf := State.noFault_of_running hs hr
    rw [step_of_fetch_run hfetch, exec_halt, if_pos hpc] at h
    cases h
    exact ⟨rfl, hnf⟩
end

end Sys2Proof.Machine

open Sys2Proof Sys2Proof.Machine

/-- Settles O11: with pc outside [0, MS) the window is empty. -/
theorem pcOutOfRangeRaisesBadAccess : Obligations.PcOutOfRangeRaisesBadAccess :=
  fun _ hr h => ⟨_, step_of_fetch_raise (fetch_of_outside hr h), rfl, rfl, rfl⟩

/-- Settles O12: the window begins with the opcode byte, which decides alone. -/
theorem unmappedOpcodeRaisesBadInstruction : Obligations.UnmappedOpcodeRaisesBadInstruction :=
  fun _ hr h0 hms hop => ⟨_, step_of_fetch_raise (fetch_of_unmapped hr h0 hms hop), rfl, rfl, rfl⟩

/-- Settles O13: the window is too short for the operands, and every handler begins with the same check. -/
theorem lengthCheckRaisesBadAccess : Obligations.LengthCheckRaisesBadAccess := by
  refine ⟨fun _ _ hr h0 hms hop hlen => step_of_fetch_raise (fetch_of_cutOff hr h0 hms hop hlen),
    fun _ _ hlen => exec_of_not_fits (Int.not_le.mpr hlen), fun s m hm hms => ?_⟩
  rw [hm]
  exact hms

/-- Settles O15: a handler ends in one of four ways and a step as its handler or with a fault of the fetch. -/
theorem handlersEndInOneOfFourWaysAndFaultsArePrecise :
    Obligations.HandlersEndInOneOfFourWaysAndFaultsArePrecise := by
  refine ⟨fun i s hr => ?_, fun s hr => ?_, fun s hr h => step_of_fetch_raise (fetch_of_outside hr h),
    fun s hr h0 hms => ⟨fun hop => step_of_fetch_raise (fetch_of_unmapped hr h0 hms hop),
      fun m hop hlen => step_of_fetch_raise (fetch_of_cutOff hr h0 hms hop hlen)⟩⟩
  · obtain ⟨t, ht⟩ := exec_next i s
    exact ⟨t, ht, exec_ends hr ht⟩
  · obtain ⟨t, ht⟩ := step_next_of_running hr
    exact ⟨t, ht, step_ends hr ht⟩

/-- Settles O16: a running core always has a next state, and the fetch stops in a finished one. -/
theorem exactlyTheRunningStatesHaveOneSuccessor : Obligations.ExactlyTheRunningStatesHaveOneSuccessor := by
  refine ⟨fun s hr => ?_, fun s hr => step_of_fetch_stop (by rw [fetch, hr]),
    fun s r hr => step_of_fetch_stop (by rw [fetch, hr])⟩
  obtain ⟨t, ht⟩ := step_next_of_running hr
  exact ⟨t, ht, fun u hu => by cases ht.symm.trans hu; rfl⟩

/-- Settles O17: the snapshot shows the run state and flags as they are, so it shows a clean end as one. -/
theorem runsEndCleanlyExactlyAtHalt : Obligations.RunsEndCleanlyExactlyAtHalt :=
  ⟨fun _ _ hs h => ⟨cleanEnd_iff_fetch_halt hs h, (cleanEnd_iff_fetch_halt hs h).symm⟩, fun _ => rfl⟩

/-- Settles O9: the bytes of the statement are the fetch window. -/
theorem stepRunsTheDecodedInstruction : Obligations.StepRunsTheDecodedInstruction := by
  intro s i rest hr h0 hms hdec
  exact step_of_decode hr (by rw [fetchWindow_of_inside h0 hms]; exact hdec)
end

section
/-!
PROOFS. The arithmetic instructions (R120 to R126). First how a handler with register operands goes once its
checks pass or fail, then what the integer arithmetic of the model is on words.
-/

namespace Sys2Proof.Machine

/-! ### Past the checks -/

theorem checkLength_of_fits {len : Nat} {s : State} (k : Result) (hf : s.fits len) : checkLength len s k = k :=
  if_pos hf

theorem checkReg_of_named {b : Byte} {r : Fin 4} (s : State) (k : Fin 4 → Result) (hb : b.toNat = r.val) :
    checkReg b s k = k r := by
  rw [checkReg, regOf_eq_some.mpr hb]

/-- A handler with one register operand whose bytes fit and whose register byte is valid. -/
theorem checked_reg {len : Nat} {b : Byte} {r : Fin 4} {s : State} (k : Fin 4 → Result) (hf : s.fits len)
    (hb : b.toNat = r.val) : checkLength len s (checkReg b s k) = k r := by
  rw [checkLength_of_fits _ hf, checkReg_of_named _ _ hb]

/-- A handler with two register operands, when its bytes fit and both register bytes are valid. -/
theorem checked_regs {len : Nat} {b c : Byte} {p q : Fin 4} {s : State} (k : Fin 4 → Fin 4 → Result)
    (hf : s.fits len) (hb : b.toNat = p.val) (hc : c.toNat = q.val) :
    checkLength len s (checkReg b s fun p => checkReg c s (k p)) = k p q := by
  rw [checked_reg _ hf hb, checkReg_of_named _ _ hc]

/-- An instruction that runs past MS raises BAD_ACCESS before anything else (R104). -/
theorem faultsWhenCutOff_of_lengthOf {i : Instr} {len : Nat} (s : State) (hlen : lengthOf i.mnemonic = len) :
    faultsWhenCutOff i len s := by
  subst hlen
  intro hcut
  exact ⟨_, exec_of_not_fits (Int.not_le.mpr hcut), rfl, rfl⟩

/-- The two faults that come before an instruction's own rule (R104, R105). -/
theorem stopsBeforeRunning_of_lengthOf {i : Instr} {len : Nat} (s : State) (hlen : lengthOf i.mnemonic = len) :
    stopsBeforeRunning i len s := by
  refine ⟨faultsWhenCutOff_of_lengthOf s hlen, ?_⟩
  subst hlen
  exact exec_raises_of_invalid_reg

/-! ### Integer arithmetic on words -/

section
variable (v w : Word)

theorem wrap32_add_toInt : wrap32 (v.toInt + w.toInt) = v + w := by
  rw [wrap32, BitVec.ofInt_add, BitVec.ofInt_toInt, BitVec.ofInt_toInt]

theorem wrap32_neg_toInt : wrap32 (-v.toInt) = 0#32 - v := by
  rw [wrap32, BitVec.ofInt_neg, BitVec.ofInt_toInt, BitVec.zero_sub]

theorem wrap32_mul_toInt : wrap32 (v.toInt * w.toInt) = v * w := by
  rw [wrap32, BitVec.ofInt_mul, BitVec.ofInt_toInt, BitVec.ofInt_toInt]

/-- The signed quotient is the wrapped truncated one: -2^31 / -1 wraps (D7). -/
theorem wrap32_tdiv_toInt : wrap32 (tdiv v.toInt w.toInt) = v.sdiv w := by
  apply BitVec.eq_of_toInt_eq
  rw [wrap32, tdiv, BitVec.toInt_ofInt, BitVec.toInt_sdiv]

/-- The signed remainder goes with the truncated quotient, so it has the dividend's sign (G1). -/
theorem wrap32_trem_toInt : wrap32 (trem v.toInt w.toInt) = v.srem w := by
  rw [wrap32, trem, tdiv, ← Int.tmod_def, ← BitVec.toInt_srem, BitVec.ofInt_toInt]

theorem toInt_eq_zero_iff : v.toInt = 0 ↔ v = 0#32 := by
  rw [← BitVec.toInt_inj, BitVec.toInt_zero]

end

/-! ### What each instruction computes -/

section
variable {src dst : Byte} {a d : Fin 4} {s : State}

/-- ADD completes on valid registers (R120). -/
theorem exec_add (hf : s.fits 3) (ha : src.toNat = a.val) (hd : dst.toNat = d.val) :
    exec (.add src dst) s = .next ((s.setReg d (s.reg d + s.reg a)).advance 3) := by
  rw [exec, execAdd, checked_regs _ hf ha hd, wrap32_add_toInt]

/-- NEG completes on a valid register (R121). -/
theorem exec_neg (hf : s.fits 2) (hd : dst.toNat = d.val) :
    exec (.neg dst) s = .next ((s.setReg d (0#32 - s.reg d)).advance 2) := by
  rw [exec, execNeg, checked_reg _ hf hd, wrap32_neg_toInt]

/-- MUL completes on valid registers (R122). -/
theorem exec_mul (hf : s.fits 3) (ha : src.toNat = a.val) (hd : dst.toNat = d.val) :
    exec (.mul src dst) s = .next ((s.setReg d (s.reg d * s.reg a)).advance 3) := by
  rw [exec, execMul, checked_regs _ hf ha hd, wrap32_mul_toInt]

/-- DIV on valid registers: its divisor is the source (R123, R126). -/
theorem exec_div (hf : s.fits 3) (ha : src.toNat = a.val) (hd : dst.toNat = d.val) :
    exec (.div src dst) s = if s.reg a = 0#32 then .next (s.raiseUndefined .divideByZero)
      else .next ((s.setReg d ((s.reg d).sdiv (s.reg a))).advance 3) := by
  simp only [exec, execDiv, checked_regs _ hf ha hd, toInt_eq_zero_iff, wrap32_tdiv_toInt]

/-- MOD on valid registers: its divisor is the destination (R124, R126). -/
theorem exec_mod (hf : s.fits 3) (ha : src.toNat = a.val) (hd : dst.toNat = d.val) :
    exec (.mod src dst) s = if s.reg d = 0#32 then .next (s.raiseUndefined .divideByZero)
      else .next ((s.setReg d ((s.reg a).srem (s.reg d))).advance 3) := by
  simp only [exec, execMod, checked_regs _ hf ha hd, toInt_eq_zero_iff, wrap32_trem_toInt]

end

end Sys2Proof.Machine

open Sys2Proof Sys2Proof.Machine

/-- Settles O28: `wrap32` of the integer sum is the 32-bit sum. -/
theorem addStoresTheWrappedSum : Obligations.AddStoresTheWrappedSum :=
  fun _ _ _ s => ⟨rfl, stopsBeforeRunning_of_lengthOf s rfl, fun _ _ hf ha hd => exec_add hf ha hd⟩

/-- Settles O29: `wrap32` of the integer negation is the 32-bit one, which maps -2^31 to itself (D6). -/
theorem negStoresTheWrappedNegation : Obligations.NegStoresTheWrappedNegation := by
  refine fun _ _ s => ⟨rfl, stopsBeforeRunning_of_lengthOf s rfl, fun d hf hd =>
    ⟨exec_neg hf hd, fun hmin => ?_⟩⟩
  rw [hmin]
  decide

/-- Settles O30: `wrap32` of the integer product is the 32-bit product. -/
theorem mulStoresTheLowHalfOfTheProduct : Obligations.MulStoresTheLowHalfOfTheProduct :=
  fun _ _ _ s => ⟨rfl, stopsBeforeRunning_of_lengthOf s rfl, fun _ _ hf ha hd => exec_mul hf ha hd⟩

/-- Settles O31, by the two branches of DIV on its divisor x[src]. -/
theorem divStoresTheTruncatedQuotient : Obligations.DivStoresTheTruncatedQuotient :=
  fun _ _ _ s => ⟨rfl, stopsBeforeRunning_of_lengthOf s rfl, fun _ _ hf ha hd =>
    ⟨fun hne => (exec_div hf ha hd).trans (if_neg hne), fun hz => (exec_div hf ha hd).trans (if_pos hz)⟩⟩

/-- Settles O32, by the two branches of MOD on its divisor x[dst]. -/
theorem modStoresTheRemainderOfSourceByDestination : Obligations.ModStoresTheRemainderOfSourceByDestination :=
  fun _ _ _ s => ⟨rfl, stopsBeforeRunning_of_lengthOf s rfl, fun _ _ hf ha hd =>
    ⟨fun hne => (exec_mod hf ha hd).trans (if_neg hne), fun hz => (exec_mod hf ha hd).trans (if_pos hz)⟩⟩
end

section
/-!
PROOFS. Comparison and control transfer (R140 to R147). First the encoding of a word operand and the signed
comparison on words, then what each instruction does once its bytes fit.
-/

namespace Sys2Proof.Machine

/-- Byte `k` of a word by division is the model's byte `k` (R77). -/
theorem ofNat_div_mod_eq_wordByte (w : Word) (k : Nat) :
    BitVec.ofNat 8 (w.toNat / 2 ^ (8 * k) % 2 ^ 8) = wordByte w k := by
  apply BitVec.eq_of_toNat_eq
  rw [BitVec.toNat_ofNat, toNat_wordByte, Nat.mod_mod]

/-- The bytes of a word operand are its little-endian ones (R77). -/
theorem wordBytes_eq_littleEndian (w : Word) : wordBytes w = littleEndian w := by
  simp only [wordBytes, ← ofNat_div_mod_eq_wordByte, littleEndian, Nat.mul_zero, Nat.pow_zero, Nat.div_one,
    Nat.mul_one, Nat.reduceMul]

/-- A state whose pc left [0, MS) raises BAD_ACCESS when it is stepped (R101). -/
theorem faultsAtNextFetchIfOutside_all (t : State) : faultsAtNextFetchIfOutside t :=
  fun hr h => ⟨_, step_of_fetch_raise (fetch_of_outside hr h), rfl, rfl⟩

/-! ### Signed comparison on words -/

/-- The comparison flags are the signed comparisons of the two words (R140). -/
theorem Flags.compare_eq (f : Flags) (v w : Word) :
    f.compare v w = { f with below := v.slt w, equal := v == w, above := w.slt v } := by
  have heq : decide (v.toInt = w.toInt) = (v == w) := decide_eq_decide.mpr BitVec.toInt_inj
  rw [compare, heq]
  rfl

/-- Of below, equal and above exactly one holds, because the signed order is total. -/
theorem exactly_one_signed_comparison (v w : Word) :
    (v.slt w).toNat + (v == w).toNat + (w.slt v).toNat = 1 := by
  simp only [BitVec.slt, beq_eq_decide, ← BitVec.toInt_inj]
  obtain hlt | heq | hgt := lt_trichotomy v.toInt w.toInt
  · simp [hlt, hlt.ne, hlt.le]
  · simp [heq]
  · simp [hgt, hgt.ne', hgt.le]

/-! ### What each instruction does -/

section
variable {s : State} {target : Word}

/-- CMP completes on valid registers (R140). -/
theorem exec_cmp {ra rb : Byte} {a b : Fin 4} (hf : s.fits 3) (ha : ra.toNat = a.val) (hb : rb.toNat = b.val) :
    exec (.cmp ra rb) s =
      .next (State.advance { s with flags := s.flags.compare (s.reg a) (s.reg b) } 3) := by
  rw [exec, execCmp, checked_regs _ hf ha hb]

/-- A jump changes pc alone: to the target when taken, and else past its 5 bytes (R141 to R144). -/
theorem jumpWhen_of_fits (taken : Bool) (hf : s.fits 5) :
    jumpWhen taken target s = .next { s with pc := if taken then target else s.pc + 5#32 } := by
  rw [jumpWhen, checkLength_of_fits _ hf]
  cases taken <;> rfl

/-- CALL completes with 4 free bytes (R145). -/
theorem exec_call (hf : s.fits 5) (hfree : 4 ≤ s.available) :
    exec (.call target) s = .next ((s.push (s.pc + 5#32)).jump target) :=
  checkLength_next.mpr (.inl ⟨hf, checkAvailable_next.mpr (.inl ⟨hfree, rfl⟩)⟩)

/-- CALL with fewer than 4 free bytes raises STACK_OVERFLOW (R145). -/
theorem exec_call_of_full (hf : s.fits 5) (hfull : s.available < 4) :
    exec (.call target) s = .next (s.raise .stackOverflow) :=
  checkLength_next.mpr (.inl ⟨hf, checkAvailable_next.mpr (.inr ⟨hfull, rfl⟩)⟩)

/-- RET completes with 4 used bytes (R146). -/
theorem exec_ret (hf : s.fits 1) (hused : 4 ≤ s.occupied) :
    exec .ret s = .next { s with pc := s.mem.readWord s.sp.toNat, sp := s.sp + 4#32 } := by
  have hpop : exec .ret s = .next (s.pop.2.jump s.pop.1) :=
    checkLength_next.mpr (.inl ⟨hf, checkOccupied_next.mpr (.inl ⟨hused, rfl⟩)⟩)
  rw [hpop, pop_eq hused]
  rfl

/-- RET with fewer than 4 used bytes raises STACK_UNDERFLOW (R146; C4). -/
theorem exec_ret_of_empty (hf : s.fits 1) (hempty : s.occupied < 4) :
    exec .ret s = .next (s.raise .stackUnderflow) :=
  checkLength_next.mpr (.inl ⟨hf, checkOccupied_next.mpr (.inr ⟨hempty, rfl⟩)⟩)

/-- The word a push stored is on top of the stack. -/
theorem readWord_sp_push (hwf : s.mem.wf) (v : Word) : (s.push v).mem.readWord (s.push v).sp.toNat = v :=
  Memory.readWord_writeWord_self hwf _ v

/-- With 4 free bytes a push adds 4 used bytes. -/
theorem occupied_push (hfree : 4 ≤ s.available) (v : Word) : (s.push v).occupied = s.occupied + 4 := by
  have haddr := pushAddr_toInt hfree
  simp only [State.occupied, State.push_sp, State.push_cfg]
  omega

/-- RET right after CALL's push and jump takes the return address back off the stack (R145, R146). -/
theorem exec_ret_after_call (hwf : s.mem.wf) (hfree : 4 ≤ s.available) (hused : 0 ≤ s.occupied)
    (ht : target.toInt < s.cfg.ms.toInt) (v : Word) :
    exec .ret ((s.push v).jump target) =
      .next { s with pc := v, mem := s.mem.writeWord s.pushAddr.toNat v } := by
  have hroom : 4 ≤ ((s.push v).jump target).occupied := by
    have hpush : ((s.push v).jump target).occupied = s.occupied + 4 := occupied_push hfree v
    omega
  have hsp : s.pushAddr + 4#32 = s.sp := BitVec.sub_add_cancel _ _
  rw [exec_ret (Int.add_one_le_iff.mpr ht) hroom, State.jump_mem, State.jump_sp, readWord_sp_push hwf,
    State.push_sp, hsp]
  rfl

end

end Sys2Proof.Machine

open Sys2Proof Sys2Proof.Machine

/-- Settles O33: the model compares the words as integers, which is the signed comparison; a CMP that stops keeps
the comparison flags as every stopping instruction does (O19). -/
theorem cmpSetsExactlyOneFlagBySignedCompare : Obligations.CmpSetsExactlyOneFlagBySignedCompare := by
  intro ops ra rb s
  refine ⟨rfl, stopsBeforeRunning_of_lengthOf s rfl, fun t hr h hstop => ?_, fun a b hf ha hb =>
    ⟨?_, exactly_one_signed_comparison _ _⟩⟩
  · obtain ⟨-, -, hkept⟩ := flagsChangeOnlyByCmpAndByFaults _ s t hr h
    exact hkept hstop
  · rw [exec_cmp hf ha hb, Flags.compare_eq]
    rfl

/-- Settles O34: the three jumps are `jumpWhen` on their own flag. -/
theorem conditionalJumpsFollowTheirFlag : Obligations.ConditionalJumpsFollowTheirFlag := by
  intro ops target s
  have hbytes (m : Mnemonic) : ops.opcodeOf m :: wordBytes target = ops.opcodeOf m :: littleEndian target := by
    rw [wordBytes_eq_littleEndian]
  refine ⟨⟨hbytes .ja, hbytes .je, hbytes .jb⟩, fun i hi => faultsWhenCutOff_of_lengthOf s ?_, fun hf =>
    ⟨jumpWhen_of_fits _ hf, jumpWhen_of_fits _ hf, jumpWhen_of_fits _ hf, faultsAtNextFetchIfOutside_all _⟩⟩
  simp only [List.mem_cons, List.not_mem_nil, or_false] at hi
  obtain rfl | rfl | rfl := hi
  · rfl
  · rfl
  · rfl

/-- Settles O35: JMP is the jump that is always taken. -/
theorem jmpGoesToItsTarget : Obligations.JmpGoesToItsTarget :=
  fun _ target s => ⟨congrArg _ (wordBytes_eq_littleEndian target), faultsWhenCutOff_of_lengthOf s rfl,
    fun hf => ⟨jumpWhen_of_fits true hf, faultsAtNextFetchIfOutside_all _⟩⟩

/-- Settles O36, by the two branches of CALL on the free bytes. -/
theorem callPushesTheReturnAddressAndJumps : Obligations.CallPushesTheReturnAddressAndJumps :=
  fun _ target s => ⟨congrArg _ (wordBytes_eq_littleEndian target), faultsWhenCutOff_of_lengthOf s rfl,
    fun hf hfull => ⟨_, exec_call_of_full hf hfull, rfl, rfl, rfl, rfl⟩,
    fun hf hfree => ⟨exec_call hf hfree, faultsAtNextFetchIfOutside_all _⟩⟩

/-- Settles O37, by the two branches of RET on the used bytes. -/
theorem retPopsPc : Obligations.RetPopsPc :=
  fun _ s => ⟨rfl, faultsWhenCutOff_of_lengthOf s rfl,
    fun hpc hempty => ⟨_, exec_ret_of_empty (Int.add_one_le_iff.mpr hpc) hempty, rfl, rfl⟩,
    fun hpc hused => ⟨exec_ret (Int.add_one_le_iff.mpr hpc) hused, faultsAtNextFetchIfOutside_all _⟩⟩

/-- Settles O38: the word CALL pushed is the word RET pops. -/
theorem retUndoesCall : Obligations.RetUndoesCall :=
  fun _ _ hwf _ hsp hf hfree ht =>
    ⟨_, _, exec_call hf hfree, rfl, exec_ret_after_call hwf hfree (Int.sub_nonneg.mpr hsp) ht _,
      rfl, rfl, rfl, rfl, rfl⟩
end

section
/-!
PROOFS. Data movement (R160 to R165). First the bytes of a register and a word operand and the two outcomes of
the data-address check, then what each instruction does once its bytes fit and its register bytes are valid.
-/

namespace Sys2Proof.Machine

/-- The bytes of an encoding with a register byte and a word operand (format `RW` of R70, R77). -/
theorem cons_cons_wordBytes (op r : Byte) (w : Word) : op :: r :: wordBytes w = op :: r :: littleEndian w := by
  rw [wordBytes_eq_littleEndian]

section
variable {ea : Word} {s : State}

/-! ### The data-address check -/

theorem checkData_of_dataOk (k : Result) (h : s.dataOk ea) : checkData ea s k = k := if_pos h

theorem not_dataOk_of_outside (h : ea.toInt < 0 ∨ s.cfg.ms.toInt < ea.toInt + 4) : ¬ s.dataOk ea := by
  rw [not_and_or, Int.not_le, Int.not_le]
  exact h

/-- A word that starts below 0 or runs past MS raises BAD_ACCESS (R160, D2). -/
theorem checkData_of_outside (k : Result) (h : ea.toInt < 0 ∨ s.cfg.ms.toInt < ea.toInt + 4) :
    checkData ea s k = .next (s.raise .badAccess) :=
  if_neg (not_dataOk_of_outside h)

theorem raises_checkData_of_outside (k : Result) (h : ea.toInt < 0 ∨ s.cfg.ms.toInt < ea.toInt + 4) :
    raises (checkData ea s k) .badAccess :=
  ⟨_, checkData_of_outside k h, rfl, rfl⟩

/-! ### What each instruction does -/

/-- LOAD on a valid register (R161). -/
theorem exec_load {r : Byte} {d : Fin 4} (hf : s.fits 6) (hd : r.toNat = d.val) :
    exec (.load r ea) s = checkData ea s (.next ((s.setReg d (s.mem.readWord ea.toNat)).advance 6)) := by
  rw [exec, execLoad, checked_reg _ hf hd]

/-- STORE on a valid register (R162). -/
theorem exec_store {r : Byte} {d : Fin 4} (hf : s.fits 6) (hd : r.toNat = d.val) :
    exec (.store r ea) s =
      checkData ea s (.next (State.advance { s with mem := s.mem.writeWord ea.toNat (s.reg d) } 6)) := by
  rw [exec, execStore, checked_reg _ hf hd]

/-- CONST completes on a valid register (R163). -/
theorem exec_const {r : Byte} {d : Fin 4} (imm : Word) (hf : s.fits 6) (hd : r.toNat = d.val) :
    exec (.const r imm) s = .next ((s.setReg d imm).advance 6) := by
  rw [exec, execConst, checked_reg _ hf hd]

/-- RLOAD on valid registers: its address is in the first one (R164). -/
theorem exec_rload {ra rd : Byte} {a d : Fin 4} (hf : s.fits 3) (ha : ra.toNat = a.val) (hd : rd.toNat = d.val) :
    exec (.rload ra rd) s =
      checkData (s.reg a) s (.next ((s.setReg d (s.mem.readWord (s.reg a).toNat)).advance 3)) := by
  rw [exec, execRload, checked_regs _ hf ha hd]

/-- RSTORE on valid registers: its address is in the second one (R165). -/
theorem exec_rstore {rd ra : Byte} {d a : Fin 4} (hf : s.fits 3) (hd : rd.toNat = d.val) (ha : ra.toNat = a.val) :
    exec (.rstore rd ra) s = checkData (s.reg a) s
      (.next (State.advance { s with mem := s.mem.writeWord (s.reg a).toNat (s.reg d) } 3)) := by
  rw [exec, execRstore, checked_regs _ hf hd ha]

end

end Sys2Proof.Machine

open Sys2Proof Sys2Proof.Machine

/-- Settles O39, by the two outcomes of LOAD's address check. -/
theorem loadReadsTheWordAtItsAddress : Obligations.LoadReadsTheWordAtItsAddress := by
  refine fun _ _ ea s => ⟨cons_cons_wordBytes _ _ ea,
    stopsBeforeRunning_of_lengthOf s rfl, fun d hf hd => ?_⟩
  rw [exec_load hf hd]
  exact ⟨checkData_of_dataOk _, raises_checkData_of_outside _⟩

/-- Settles O40, by the two outcomes of STORE's address check, which comes before the write. -/
theorem storeWritesTheWordAtItsAddress : Obligations.StoreWritesTheWordAtItsAddress := by
  refine fun _ _ ea s => ⟨cons_cons_wordBytes _ _ ea,
    stopsBeforeRunning_of_lengthOf s rfl, fun d hf hd => ?_⟩
  rw [exec_store hf hd]
  exact ⟨checkData_of_dataOk _, fun hout => ⟨_, checkData_of_outside _ hout, rfl, rfl, rfl⟩⟩

/-- Settles O41: CONST has no check after its register's. -/
theorem constLoadsItsImmediate : Obligations.ConstLoadsItsImmediate :=
  fun _ _ imm s => ⟨cons_cons_wordBytes _ _ imm,
    stopsBeforeRunning_of_lengthOf s rfl, fun _ hf hd => exec_const imm hf hd⟩

/-- Settles O42, by the two outcomes of RLOAD's check of the address in its first register. -/
theorem rloadReadsTheWordItsFirstRegisterAddresses : Obligations.RloadReadsTheWordItsFirstRegisterAddresses := by
  refine fun _ _ _ s => ⟨rfl, stopsBeforeRunning_of_lengthOf s rfl, fun a d hf ha hd => ?_⟩
  rw [exec_rload hf ha hd]
  exact ⟨checkData_of_dataOk _, raises_checkData_of_outside _⟩

/-- Settles O43, by the two outcomes of RSTORE's check of the address in its second register. -/
theorem rstoreWritesTheWordItsSecondRegisterAddresses :
    Obligations.RstoreWritesTheWordItsSecondRegisterAddresses := by
  refine fun _ _ _ s => ⟨rfl, stopsBeforeRunning_of_lengthOf s rfl, fun d a hf hd ha => ?_⟩
  rw [exec_rstore hf hd ha]
  exact ⟨checkData_of_dataOk _, raises_checkData_of_outside _⟩
end

section
/-!
PROOFS. System instructions (R180 to R184). First what the string scan of INT 2 finds, then what each instruction
does once its bytes fit, and that a completing INT alone appends to the output (R183).
-/

namespace Sys2Proof.Machine

/-! ### Strings in memory -/

namespace Memory

section
variable {m : Memory} {n a : Nat}

theorem scanString_of_zero (h : m.read a = 0#8) : m.scanString (n + 1) a = some [] := if_pos h

theorem scanString_of_nonzero (h : m.read a ≠ 0#8) :
    m.scanString (n + 1) a = (m.scanString n (a + 1)).map (m.read a :: ·) := if_neg h

/-- The scan finds the bytes before the first 0 when that 0 is among the `n` bytes it may read (R182). -/
theorem scanString_eq_some {str : List Byte} (hn : str.length < n) (hnz : ∀ b ∈ str, b ≠ 0#8)
    (hat : ∀ k, k < str.length → str[k]? = some (m.read (a + k))) (hend : m.read (a + str.length) = 0#8) :
    m.scanString n a = some str := by
  induction str generalizing n a with
  | nil =>
    obtain ⟨n, rfl⟩ := Nat.exists_eq_add_one.mpr hn
    exact scanString_of_zero hend
  | cons c str ih =>
    obtain ⟨n, rfl⟩ := Nat.exists_eq_add_one.mpr (Nat.zero_lt_of_lt hn)
    have hc : c = m.read a := Option.some.inj (hat 0 (Nat.zero_lt_succ _))
    have htail : m.scanString n (a + 1) = some str := by
      refine ih (Nat.lt_of_succ_lt_succ hn) (fun b hb => hnz b (List.mem_cons_of_mem _ hb)) (fun k hk => ?_) ?_
      · rw [Nat.add_right_comm]
        exact hat (k + 1) (Nat.succ_lt_succ hk)
      · rw [Nat.add_right_comm]
        exact hend
    rw [scanString_of_nonzero (hc ▸ hnz c List.mem_cons_self), htail, hc]
    rfl

/-- The scan finds no string when none of the `n` bytes it may read is 0 (R182). -/
theorem scanString_eq_none (h : ∀ b, a ≤ b → b < a + n → m.read b ≠ 0#8) : m.scanString n a = none := by
  induction n generalizing a with
  | zero => rfl
  | succ n ih =>
    have htail : m.scanString n (a + 1) = none := ih fun b hlow hhigh => h b (by omega) (by omega)
    rw [scanString_of_nonzero (h a le_rfl (by omega)), htail]
    rfl

end

end Memory

section
variable {s : State} {v : Word}

theorem State.cstring_of_nonneg (h : 0 ≤ v.toInt) :
    s.cstring v = s.mem.scanString (s.cfg.ms.toInt - v.toInt).toNat v.toNat := if_neg (Int.not_lt.mpr h)

/-- The string at an address is the bytes before the first 0 below MS (R182). -/
theorem State.cstring_eq_some {str : List Byte} (h : 0 ≤ v.toInt) (hms : v.toInt + str.length < s.cfg.ms.toInt)
    (hnz : ∀ b ∈ str, b ≠ 0#8) (hat : ∀ k, k < str.length → str[k]? = some (s.mem.read (v.toNat + k)))
    (hend : s.mem.read (v.toNat + str.length) = 0#8) : s.cstring v = some str := by
  rw [cstring_of_nonneg h]
  exact Memory.scanString_eq_some (by omega) hnz hat hend

/-- There is no string at a negative address, nor where no 0 follows below MS (R182; D15). -/
theorem State.cstring_eq_none (h : v.toInt < 0 ∨
    ∀ b : Nat, v.toNat ≤ b → (b : Int) < s.cfg.ms.toInt → s.mem.read b ≠ 0#8) : s.cstring v = none := by
  by_cases hneg : v.toInt < 0
  · exact if_pos hneg
  · have hlow := Int.not_lt.mp hneg
    have haddr := toNat_of_nonneg hlow
    rw [cstring_of_nonneg hlow]
    exact Memory.scanString_eq_none fun b hlo hhi => h.resolve_left hneg b hlo (by omega)

end

/-! ### What each instruction does -/

section
variable {s : State}

/-- HALT_PC_ADVANCE, 0 or 1, as R180 adds it to pc. -/
theorem add_haltPcAdvance (pc : Word) (adv : Fin 2) :
    pc + BitVec.ofNat 32 adv.val = if adv = 0 then pc else pc + 1#32 := by
  match adv with
  | 0 => exact BitVec.add_zero pc
  | 1 => rfl

/-- HALT completes inside memory (R180). -/
theorem exec_halt_of_lt (hpc : s.pc.toInt < s.cfg.ms.toInt) : exec .halt s = .next { s with
    run := .halted
    pc := if s.cfg.haltPcAdvance = 0 then s.pc else s.pc + 1#32 } := by
  rw [exec_halt, if_pos hpc, ← add_haltPcAdvance]
  rfl

/-- NOP completes inside memory (R184). -/
theorem exec_nop (hf : s.fits 1) : exec .nop s = .next (s.advance 1) := checkLength_of_fits _ hf

/-- An interrupt number that names no interrupt raises BAD_INSTRUCTION whatever the stack holds (R181, D13). -/
theorem exec_int_of_unknown {n : Byte} (hf : s.fits 2) (h1 : n ≠ 1#8) (h2 : n ≠ 2#8) :
    exec (.int n) s = .next (s.raise .badInstruction) := by
  rw [exec, execInt, checkLength_of_fits _ hf, if_pos ⟨h1, h2⟩]

/-- INT 1 and INT 2 on an empty stack raise BAD_ACCESS (R181, D14). -/
theorem exec_int_of_empty {n : Byte} (hf : s.fits 2) (hn : n = 1#8 ∨ n = 2#8) (hempty : s.isEmpty) :
    exec (.int n) s = .next (s.raise .badAccess) := by
  rw [exec, execInt, checkLength_of_fits _ hf, if_neg fun h => hn.elim h.1 h.2, if_pos hempty]

/-- INT 1 pops a word and emits it (R181, R183). -/
theorem exec_int_one (hf : s.fits 2) (hsp : ¬ s.isEmpty) : exec (.int 1#8) s =
    .next ((State.emit { s with sp := s.sp + 4#32 } (.int (s.mem.readWord s.sp.toNat))).advance 2) := by
  rw [exec, execInt, checkLength_of_fits _ hf, if_neg (by decide), if_neg hsp, if_pos rfl,
    State.pop_of_occupied hsp]

/-- INT 2 on a word that is the address of a string emits the string (R181 to R183). -/
theorem exec_int_two_of_string {str : List Byte} (hf : s.fits 2) (hsp : ¬ s.isEmpty)
    (hstr : s.cstring (s.mem.readWord s.sp.toNat) = some str) : exec (.int 2#8) s =
    .next ((State.emit { s with sp := s.sp + 4#32 } (.str str)).advance 2) := by
  rw [exec, execInt, checkLength_of_fits _ hf, if_neg (by decide), if_neg hsp, if_neg (by decide),
    State.pop_of_occupied hsp]
  simp only [hstr]

/-- INT 2 on a word that is the address of no string raises BAD_ACCESS (R182, D15). -/
theorem exec_int_two_of_no_string (hf : s.fits 2) (hsp : ¬ s.isEmpty)
    (hstr : s.cstring (s.mem.readWord s.sp.toNat) = none) :
    exec (.int 2#8) s = .next (s.raise .badAccess) := by
  rw [exec, execInt, checkLength_of_fits _ hf, if_neg (by decide), if_neg hsp, if_neg (by decide),
    State.pop_of_occupied hsp]
  simp only [hstr]

end

/-! ### The output -/

/-- An instruction other than INT that completes emits nothing. -/
theorem completes_out {i : Instr} {s t : State} (h : completes i s t) (hi : i.mnemonic ≠ .int) :
    t.out = s.out := by
  cases i <;> simp only [completes] at h
  case int => exact absurd rfl hi
  case add | mul | cmp =>
    obtain ⟨a, b, -, -, rfl⟩ := h
    rfl
  case div | mod | rload | rstore =>
    obtain ⟨a, b, -, -, -, rfl⟩ := h
    rfl
  case neg | const | lsp =>
    obtain ⟨d, -, rfl⟩ := h
    rfl
  case load | store | push | pop =>
    obtain ⟨d, -, -, rfl⟩ := h
    rfl
  case ja | je | jb =>
    subst h
    exact (apply_ite State.out _ _ _).trans (ite_self _)
  case jmp | nop =>
    subst h
    rfl
  case call | ret | pushAll | popAll =>
    obtain ⟨-, rfl⟩ := h
    rfl

/-- INT that completes appends one event (R183). -/
theorem completes_int_out {i : Instr} {s t : State} (h : completes i s t) (hi : i.mnemonic = .int) :
    ∃ e, t.out = s.out ++ [e] := by
  cases i with
  | int n =>
    obtain ⟨-, e, rfl, -⟩ := h
    exact ⟨e, rfl⟩
  | _ => cases hi

end Sys2Proof.Machine

open Sys2Proof Sys2Proof.Machine

/-- Settles O27: no way to stop emits, and of the completing instructions INT alone does. -/
theorem onlyACompletingIntEmits : Obligations.OnlyACompletingIntEmits := by
  intro i s t hs h
  refine ⟨fun hi ht => completes_int_out (completes_of_running h ht) hi, fun hquiet => ?_⟩
  by_cases ht : t.run = .running
  · exact completes_out (completes_of_running h ht) (hquiet.resolve_right (not_not_intro ht))
  · obtain ⟨f, rfl⟩ | rfl | ⟨-, rfl⟩ := stopped_cases hs h ht
    · rfl
    · rfl
    · rfl

/-- Settles O44: HALT has no check after its length's. -/
theorem haltStopsWithNoFault : Obligations.HaltStopsWithNoFault :=
  fun _ s => ⟨rfl, faultsWhenCutOff_of_lengthOf s rfl, exec_halt_of_lt⟩

/-- Settles O45, by the branches of INT in the order of its checks: the number, the stack, the string. -/
theorem intPopsAWordAndEmitsItsEvent : Obligations.IntPopsAWordAndEmitsItsEvent := by
  refine fun _ n s => ⟨rfl, faultsWhenCutOff_of_lengthOf s rfl, fun hf =>
    ⟨fun h1 h2 => ⟨_, exec_int_of_unknown hf h1 h2, rfl, rfl⟩,
      fun hn hempty => ⟨_, exec_int_of_empty hf hn hempty, rfl, rfl⟩, fun hlt => ?_⟩⟩
  have hsp : ¬ s.isEmpty := Int.not_le.mpr hlt
  exact ⟨exec_int_one hf hsp,
    fun str h hms hnz hat hend => exec_int_two_of_string hf hsp (State.cstring_eq_some h hms hnz hat hend),
    fun hnone => ⟨_, exec_int_two_of_no_string hf hsp (State.cstring_eq_none hnone), rfl, rfl⟩⟩

/-- Settles O46: NOP has no check after its length's. -/
theorem nopOnlyAdvancesPc : Obligations.NopOnlyAdvancesPc :=
  fun _ s => ⟨rfl, faultsWhenCutOff_of_lengthOf s rfl, fun hpc => exec_nop (Int.add_one_le_iff.mpr hpc)⟩
end

section
/-!
PROOFS. Stack instructions (R200 to R205). How PUSH, PUSH_ALL, POP and POP_ALL complete stands with the stack's laws
(`exec_push` and its like); here are their stops on a full or a short stack, LSP, and where the stack's words lie
above the limit SL.
-/

namespace Sys2Proof.Machine

/-! ### What each instruction does -/

section
variable {s : State} {b : Byte} {r : Fin 4}

/-- PUSH with fewer than 4 free bytes raises STACK_OVERFLOW (R200; C3). -/
theorem exec_push_of_full (hb : regOf b = some r) (hf : s.fits 2) (hfull : s.available < 4) :
    exec (.push b) s = .next (s.raise .stackOverflow) :=
  checkLength_next.mpr (.inl ⟨hf, checkReg_next.mpr (.inl ⟨r, hb, checkAvailable_next.mpr (.inr ⟨hfull, rfl⟩)⟩)⟩)

/-- PUSH_ALL with fewer than 16 free bytes raises STACK_OVERFLOW and pushes nothing (R201). -/
theorem exec_pushAll_of_full (hf : s.fits 1) (hfull : s.available < 16) :
    exec .pushAll s = .next (s.raise .stackOverflow) :=
  checkLength_next.mpr (.inl ⟨hf, checkAvailable_next.mpr (.inr ⟨hfull, rfl⟩)⟩)

/-- POP with fewer than 4 used bytes raises STACK_UNDERFLOW (R202; C3, C4). -/
theorem exec_pop_of_empty (hb : regOf b = some r) (hf : s.fits 2) (hempty : s.occupied < 4) :
    exec (.pop b) s = .next (s.raise .stackUnderflow) :=
  checkLength_next.mpr (.inl ⟨hf, checkReg_next.mpr (.inl ⟨r, hb, checkOccupied_next.mpr (.inr ⟨hempty, rfl⟩)⟩)⟩)

/-- POP_ALL with fewer than 16 used bytes raises STACK_UNDERFLOW and pops nothing (R203; D25). -/
theorem exec_popAll_of_short (hf : s.fits 1) (hshort : s.occupied < 16) :
    exec .popAll s = .next (s.raise .stackUnderflow) :=
  checkLength_next.mpr (.inl ⟨hf, checkOccupied_next.mpr (.inr ⟨hshort, rfl⟩)⟩)

/-- LSP completes on a valid register (R204). -/
theorem exec_lsp (hf : s.fits 2) (hb : b.toNat = r.val) :
    exec (.lsp b) s = .next ((s.setReg r s.sp).advance 2) := by
  rw [exec, execLsp, checked_reg _ hf hb]

end

/-! ### The words above the limit -/

section
variable {s : State}

/-- An address `k` bytes down from sp does not wrap when those bytes are free. -/
theorem sp_sub_toInt {k : Nat} (hfree : k ≤ s.available) :
    (s.sp - BitVec.ofNat 32 k).toInt = s.sp.toInt - k := by
  unfold State.available at hfree
  have hlow := BitVec.le_toInt s.cfg.sl
  have hhigh := BitVec.toInt_lt (x := s.sp)
  rw [BitVec.toInt_sub, BitVec.toInt_ofNat', Int.sub_bmod_bmod, Int.bmod_eq_of_le] <;> omega

/-- A word that starts in the free bytes starts at SL or above. -/
theorem sl_le_sp_sub {k : Nat} (hfree : k ≤ s.available) :
    s.cfg.sl.toInt ≤ (s.sp - BitVec.ofNat 32 k).toInt := by
  rw [sp_sub_toInt hfree]
  unfold State.available at hfree
  omega

/-- Apart from STORE and RSTORE, what a completing instruction stores starts at SL or above (R61, R63). -/
theorem sl_le_of_mem_storedWords {i : Instr} {t : State} {a : Word} (h : completes i s t)
    (hi : i.mnemonic ∉ [.store, .rstore]) (ha : a ∈ storedWords i s) : s.cfg.sl.toInt ≤ a.toInt := by
  cases i <;> simp only [completes] at h
  case store | rstore => exact absurd (by simp [Instr.mnemonic]) hi
  case push =>
    obtain ⟨d, -, hfree, -⟩ := h
    obtain rfl := List.mem_singleton.mp ha
    exact sl_le_sp_sub hfree
  case call =>
    obtain ⟨hfree, -⟩ := h
    obtain rfl := List.mem_singleton.mp ha
    exact sl_le_sp_sub hfree
  case pushAll =>
    obtain ⟨hfree, -⟩ := h
    have hword {k : Nat} (hk : k ≤ 16) := sl_le_sp_sub (s := s) (k := k) (by omega)
    simp only [storedWords_pushAll, List.mem_cons, List.not_mem_nil, or_false] at ha
    obtain rfl | rfl | rfl | rfl := ha
    · exact hword (k := 4) (by decide)
    · exact hword (k := 8) (by decide)
    · exact hword (k := 12) (by decide)
    · exact hword (k := 16) (by decide)
  all_goals cases ha

/-- No handler but STORE's and RSTORE's writes a byte below SL (R61). -/
theorem exec_read_below_limit {i : Instr} {t : State} {b : Nat} (hi : i.mnemonic ∉ [.store, .rstore])
    (hsl : 0 ≤ s.cfg.sl.toInt) (hb : (b : Int) < s.cfg.sl.toInt) (h : exec i s = .next t) :
    t.mem.read b = s.mem.read b := by
  obtain ⟨f, rfl⟩ | rfl | ⟨-, rfl⟩ | ⟨-, hc⟩ := exec_next_cases h
  · rfl
  · rfl
  · rfl
  · refine completes_read_outside hc fun a ha => .inl ?_
    have hlimit := sl_le_of_mem_storedWords hc hi ha
    have haddr := toNat_of_nonneg (hsl.trans hlimit)
    omega

end

end Sys2Proof.Machine

open Sys2Proof Sys2Proof.Machine

/-- Settles O47, by the two branches of PUSH on the free bytes. -/
theorem pushStoresTheRegisterBelowTheTop : Obligations.PushStoresTheRegisterBelowTheTop :=
  fun _ _ s => ⟨rfl, stopsBeforeRunning_of_lengthOf s rfl, fun _ hf hd =>
    ⟨fun hfull => ⟨_, exec_push_of_full (regOf_eq_some.mpr hd) hf hfull, rfl, rfl, rfl, rfl⟩,
      fun hfree => exec_push (regOf_eq_some.mpr hd) hf hfree⟩⟩

/-- Settles O48, by the two branches of PUSH_ALL on the free bytes; `pushAll_eq` is where its four words go. -/
theorem pushAllStoresRegistersInDescendingOrder : Obligations.PushAllStoresRegistersInDescendingOrder := by
  refine fun _ s => ⟨rfl, faultsWhenCutOff_of_lengthOf s rfl, fun hpc => ?_⟩
  have hf : s.fits 1 := Int.add_one_le_iff.mpr hpc
  refine ⟨fun hfull => ⟨_, exec_pushAll_of_full hf hfull, rfl, rfl, rfl, rfl⟩, fun hfree => ?_⟩
  rw [exec_pushAll hf hfree, pushAll_eq]
  rfl

/-- Settles O49, by the two branches of POP on the used bytes. -/
theorem popLoadsTheTopWord : Obligations.PopLoadsTheTopWord := by
  refine fun _ _ s => ⟨rfl, stopsBeforeRunning_of_lengthOf s rfl, fun d hf hd => ?_⟩
  have hb := regOf_eq_some.mpr hd
  refine ⟨fun hempty => ⟨_, exec_pop_of_empty hb hf hempty, rfl, rfl⟩, fun hused => ?_⟩
  rw [exec_pop hb hf hused, popInto_eq hused]
  rfl

/-- Settles O50, by the two branches of POP_ALL on the used bytes; `popAll_eq` is where its four words come from. -/
theorem popAllLoadsRegistersInAscendingOrder : Obligations.PopAllLoadsRegistersInAscendingOrder := by
  refine fun _ s => ⟨rfl, faultsWhenCutOff_of_lengthOf s rfl, fun hpc => ?_⟩
  have hf : s.fits 1 := Int.add_one_le_iff.mpr hpc
  refine ⟨exec_popAll_of_short hf, fun hused => ?_⟩
  rw [exec_popAll hf hused, popAll_eq hused]
  rfl

/-- Settles O51: LSP has no check after its register's. -/
theorem lspReadsTheStackPointer : Obligations.LspReadsTheStackPointer :=
  fun _ _ s => ⟨rfl, stopsBeforeRunning_of_lengthOf s rfl, fun _ hf hd => exec_lsp hf hd⟩

/-- Settles O54: none of the eight is STORE or RSTORE, the only instructions that can store below SL. -/
theorem stackInstructionsNeverWriteBelowTheLimit : Obligations.StackInstructionsNeverWriteBelowTheLimit := by
  intro i s t b hi hsl hb h
  have hother : ∀ m ∈ [Mnemonic.push, .pushAll, .pop, .popAll, .lsp, .call, .ret, .int],
      m ∉ [Mnemonic.store, .rstore] := by decide
  exact exec_read_below_limit (hother _ hi) hsl hb h
end

section
/-!
PROOFS. Initialisation and loading (R250 to R252): the least multiple of 4 at or above a request, the registers and
the fault flags of a fresh core, and the bytes of memory after a list of bytes is stored.
-/

namespace Sys2Proof.Machine

/-! ### The sizes -/

/-- `ceil4 n` is at least `n`, and at most every multiple of 4 that is (R13; D27). -/
theorem ceil4_le_iff {n : Nat} {k : Int} (hk : k % 4 = 0) : (ceil4 n : Int) ≤ k ↔ (n : Int) ≤ k := by
  unfold ceil4
  omega

/-- The size made of a legal request is the least multiple of 4 that is at least the request (R250). -/
theorem ofNat_ceil4_isLeast {n : Nat} (h : n ≤ 2 ^ 31 - 4) :
    (BitVec.ofNat 32 (ceil4 n)).toInt % 4 = 0 ∧ (n : Int) ≤ (BitVec.ofNat 32 (ceil4 n)).toInt ∧
      ∀ k : Int, k % 4 = 0 → (n : Int) ≤ k → (BitVec.ofNat 32 (ceil4 n)).toInt ≤ k := by
  obtain ⟨hsize, hmod⟩ := toInt_ceil4 (decide_eq_true h)
  have hmod : (ceil4 n : Int) % 4 = 0 := by exact_mod_cast hmod
  rw [hsize]
  exact ⟨hmod, (ceil4_le_iff hmod).mp le_rfl, fun _ hk => (ceil4_le_iff hk).mpr⟩

/-! ### The state after initialisation -/

@[simp] theorem Flags.fault_clear (f : FaultFlag) : Flags.clear.fault f = false := by
  cases f <;> rfl

@[simp] theorem State.reg_init (c : Config) (r : Fin 4) : (State.init c).reg r = 0#32 := by
  simp [reg, init, Vector.get_eq_getElem]

/-! ### Memory after a load -/

namespace Memory

/-- Storing bytes from `a` up leaves the bytes below `a`. -/
theorem read_writeBytes_below (m : Memory) {a b : Nat} (bs : List Byte) (h : b < a) :
    (m.writeBytes a bs).read b = m.read b := by
  induction bs generalizing m a with
  | nil => rfl
  | cons c bs ih => exact (ih (m.write a c) (Nat.lt_succ_of_lt h)).trans (read_write_ne m c h.ne)

/-- Byte `k` from `a` up, after bytes were stored there, is byte `k` of them, or the old byte past their end. -/
theorem read_writeBytes {m : Memory} (hm : m.wf) (a : Nat) (bs : List Byte) (k : Nat) :
    (m.writeBytes a bs).read (a + k) = bs.getD k (m.read (a + k)) := by
  induction bs generalizing m a k with
  | nil => rfl
  | cons c bs ih =>
    cases k with
    | zero => exact (read_writeBytes_below (m.write a c) bs (Nat.lt_succ_self a)).trans (read_write_self hm a c)
    | succ k =>
      have htail := ih (wf_write hm a c) (a + 1) k
      rwa [read_write_ne m c (by omega), Nat.add_right_comm] at htail

end Memory

/-- An image no longer than MS is stored whole, from address 0 up (R252; D19). -/
theorem State.load_of_length_le {s : State} {image : List Byte} (h : (image.length : Int) ≤ s.cfg.ms.toInt) :
    s.load image = { s with mem := s.mem.writeBytes 0 image } := by
  rw [load, placeBytes, List.take_of_length_le (by omega)]

end Sys2Proof.Machine

open Sys2Proof Sys2Proof.Machine

/-- Settles O55: both sizes are a `ceil4`, and R254's example computes. -/
theorem initialisationRoundsRequestsUpToFour : Obligations.InitialisationRoundsRequestsUpToFour :=
  ⟨fun _ _ _ _ hmem hlimit => ⟨ofNat_ceil4_isLeast hmem, ofNat_ceil4_isLeast hlimit⟩,
    fun _ _ => ⟨rfl, rfl, rfl, rfl, rfl⟩⟩

/-- Settles O57: the image fits, so all of it is stored, and each byte reads back. -/
theorem loadingPlacesTheImageAtAddressZero : Obligations.LoadingPlacesTheImageAtAddressZero := by
  intro s image a hwf hlen
  rw [State.load_of_length_le hlen]
  have hread := Memory.read_writeBytes hwf 0 image a
  rw [Nat.zero_add] at hread
  exact ⟨hread, rfl⟩

/-- Settles O56: the table of R251, piece by piece. -/
theorem initialisationLeavesTheResetState : Obligations.InitialisationLeavesTheResetState :=
  ⟨fun c _ r f => ⟨rfl, State.reg_init c r, rfl, rfl, Flags.fault_clear f, rfl, rfl, rfl, rfl, rfl, rfl⟩,
    resetConfig, rfl⟩
end
